-- ==== Sys2Proof/Word.lean ====
section
/-! DEFINITION. The units of data of HUFCORE (spec/00_scope.md R6, R9, R10): bits, bytes and 32-bit words. -/

namespace Sys2Proof

/-- A bit (R9): `true` is 1, `false` is 0. -/
abbrev Bit := Bool

/-- A byte of IN or OUT, and a symbol of the alphabet (R6: SYMBOL_WIDTH = 8). -/
abbrev Byte := BitVec 8

/-- A register or command word (R6: register width 32 bits). -/
abbrev Word := BitVec 32

end Sys2Proof
end

