-- ==== Sys2Proof/Syntax.lean ====
section
/-! DEFINITION. The commands of HUFCORE: one constructor per row of spec/opcode_table.json. -/

namespace Sys2Proof

/-- The host commands (spec/30_encoding.md R81). Neither carries an operand field (R83): the input length IN_LEN, the
input bytes IN[0 .. IN_LEN) and the results are implicit. -/
inductive Instr where
  /-- ENCODE, 46_commands.md R222. -/
  | encode
  /-- DECODE, 46_commands.md R223. -/
  | decode
  deriving DecidableEq, Repr

end Sys2Proof
end

