-- ==== Sys2Proof/Decode.lean ====
section
/-! DEFINITION. The command decoder (spec/30_encoding.md R84), total on every 32-bit word, and the encoder (R81). -/

namespace Sys2Proof

/-- `decodeCmd` of R84; `none` is ILLEGAL. -/
def decodeCmd (w : Word) : Option Instr :=
  if w = 0x00000001#32 then some .encode
  else if w = 0x00000002#32 then some .decode
  else none

/-- OP, bits [7:0] of a command word (R80). -/
def opField (w : Word) : BitVec 8 := w.extractLsb' 0 8

/-- RSV, bits [31:8] of a command word (R80). -/
def rsvField (w : Word) : BitVec 24 := w.extractLsb' 8 24

/-- The opcode of a command (R81, column w[7:0]). -/
def opcodeOf : Instr → BitVec 8
  | .encode => 0x01#8
  | .decode => 0x02#8

/-- The command word: OP in bits [7:0], the reserved bits [31:8] 0 (R80, R81). -/
def encodeCmd (i : Instr) : Word := (0#24 ++ opcodeOf i : BitVec 32)

/-- The command word of a row of the opcode table: `nbits` bits, the bits above them 0. -/
def tableWord (nbits w : Nat) : Word := BitVec.ofNat 32 (w % 2 ^ nbits)

/-- The command the decoder reads from an instruction of the table's numbering. Every command is one 32-bit word (R80). -/
def decodeTableWord (nbits w : Nat) : Option Instr :=
  if w % 2 ^ nbits < 2 ^ 32 then decodeCmd (tableWord nbits w) else none

end Sys2Proof
end

