-- ==== Sys2Proof/Config.lean ====
section
/-! DEFINITION. What one build of HUFCORE fixes (spec/00_scope.md R6, R7), the error kinds of
spec/60_exceptions.md R241, and the free values: what the spec leaves open, as constants without a body. -/

namespace Sys2Proof

/-- The error kinds of 60_exceptions.md R241 (codes 1 to 7; code 0, NONE, is the absence of an error). -/
inductive ErrCode where
  | emptyInput
  | truncatedStream
  | unresolvedPayloadBits
  | malformedTree
  | illegalCommand
  | badLength
  | outputOverflow
  deriving DecidableEq, Repr, Inhabited

/-- `Ok(v)` or `Err(e)` of 00_scope.md R12. -/
abbrev Result (α : Type) := Except ErrCode α

/-- The open parameters of 00_scope.md R7. A state carries its build, so that a statement about every state is a
statement about every build; no step changes it (log entry 1). -/
structure Build where
  /-- IN_CAP, the byte capacity of IN. -/
  inCap : Nat
  /-- OUT_CAP, the byte capacity of OUT. -/
  outCap : Nat
  /-- CNT_WIDTH, the width in bits of a frequency counter. -/
  cntWidth : Nat
  /-- REG_BASE, IN_BASE, OUT_BASE: where the platform places the three spaces. -/
  regBase : Nat
  inBase : Nat
  outBase : Nat
  deriving DecidableEq, Repr

namespace Config

/-! Fixed parameters, R6. -/

/-- HEADER_WIDTH. -/
def headerWidth : Nat := 3
/-- MAX_LEAVES. -/
def maxLeaves : Nat := 256
/-- MAX_INTERNAL. -/
def maxInternal : Nat := 255
/-- MAX_NODES. -/
def maxNodes : Nat := 511
/-- MAX_CODE_LEN. -/
def maxCodeLen : Nat := 255
/-- MAX_TREE_BITS. -/
def maxTreeBits : Nat := 2559

/-! The build after power-on: any legal one. DESIGN CHOICE (log entry 1): R7 leaves these open. Safe. -/

opaque rawInCap : Nat
opaque rawOutCap : Nat
opaque rawExtraWidth : Nat
opaque rawRegBase : Nat
opaque rawInBase : Nat
opaque rawOutBase : Nat

/-- The build of the reset state: every legal build of R7 is one value of the raw constants, and no other is. -/
def build : Build :=
  { inCap := rawInCap % (2 ^ 32 - 1) + 1
    outCap := rawOutCap + 1
    cntWidth := Nat.clog 2 (rawInCap % (2 ^ 32 - 1) + 1 + 1) + rawExtraWidth
    regBase := rawRegBase
    inBase := rawInBase
    outBase := rawOutBase }

/-! Free values: the n-th draw. Nothing constrains them; a claim true of the model is true whatever they are. -/

/-- A byte the spec calls "any value (a fresh draw)" (20_memory.md R64; log entry 6). -/
opaque freeByte : Nat → Byte

/-- The steps between the acceptance of a command and its completion: finite and unspecified (46_commands.md R226,
70_reset_and_hazards.md R276; log entry 2). -/
opaque completionDelay : Nat → Nat

/-- The result of a command whose input holds a byte never written since reset (46_commands.md R221: "a model leaves
RUN's result unspecified"; log entry 5). -/
opaque unspecifiedResult : Nat → Result (List Byte)

/-- OUT_LEN after a result of 2^32 bytes or more, which 32 bits cannot hold and for which the spec states no value
(log entry 12). -/
opaque longOutLen : Nat → Word

/-- The value of a host variable that nothing has been read into (30_encoding.md R99 states none; log entry 15). -/
opaque unsetVar : Nat → Word

end Config

end Sys2Proof
end

