-- ==== Sys2Proof/Machine/Bits.lean ====
section
/-! DEFINITION. Bits and bytes (spec/00_scope.md R9, R10; spec/44_bitstream.md R180). -/

namespace Sys2Proof.Machine

/-- `bits8(v)`: most significant bit first (R10). -/
def bits8 (v : Byte) : List Bit :=
  [v.getLsbD 7, v.getLsbD 6, v.getLsbD 5, v.getLsbD 4, v.getLsbD 3, v.getLsbD 2, v.getLsbD 1, v.getLsbD 0]

/-- `bits3(u)`: `[u[2], u[1], u[0]]` (R10). -/
def bits3 (u : Nat) : List Bit := [u.testBit 2, u.testBit 1, u.testBit 0]

/-- `val(s)`: the number a bit sequence spells, most significant bit first (R10). -/
def bitsVal (s : List Bit) : Nat := s.foldl (fun n b => 2 * n + b.toNat) 0

/-- The byte eight bits spell, most significant bit first. -/
def byteOfBits (s : List Bit) : Byte := BitVec.ofNat 8 (bitsVal s)

/-- `bytesToBits` (R180). -/
def bytesToBits (x : List Byte) : List Bit := x.flatMap bits8

/-- `bitsToBytes` (R180), for a sequence whose length is a multiple of 8; a shorter last group has no byte. -/
def bitsToBytes : List Bit → List Byte
  | b7 :: b6 :: b5 :: b4 :: b3 :: b2 :: b1 :: b0 :: rest =>
    byteOfBits [b7, b6, b5, b4, b3, b2, b1, b0] :: bitsToBytes rest
  | _ => []

end Sys2Proof.Machine
end

