-- ==== Sys2Proof/Machine/Bitstream.lean ====
section
/-! DEFINITION. PACK and UNPACK (spec/44_bitstream.md R181, R184). -/

namespace Sys2Proof.Machine

/-- PACK (R181): the content behind its 3-bit header, padded with 0 bits to whole bytes. -/
def pack (C : List Bit) : List Byte :=
  let S := List.replicate Config.headerWidth false ++ C
  let u := S.length % 8
  let S := bits3 u ++ S.drop Config.headerWidth
  bitsToBytes (S ++ List.replicate ((8 - u) % 8) false)

/-- The padding a header value names (R184). -/
def paddingOf (u : Nat) : Nat := if u ≠ 0 then 8 - u else 0

/-- UNPACK (R184). -/
def unpack (x : List Byte) : Result (List Bit) :=
  if x = [] then .error .truncatedStream
  else
    let S := bytesToBits x
    let u := bitsVal (S.take Config.headerWidth)
    let Lr := 8 * x.length - paddingOf u
    if Lr < Config.headerWidth then .error .truncatedStream
    else .ok ((S.take Lr).drop Config.headerWidth)

end Sys2Proof.Machine
end

