-- ==== Sys2Proof/Machine/Tables.lean ====
section
/-! DEFINITION. Trees and tables of the engine: nodes (spec/00_scope.md R13, spec/10_state.md R32), FREQ (R31) and
CODE (R34), with their accessors. -/

namespace Sys2Proof.Machine

/-- A node of a code tree (00_scope.md R13). A tree is named by its root node. -/
inductive Node where
  | leaf (sym : Byte) (freq : Nat) (side : Bit)
  | internal (c0 c1 : Node) (freq : Nat) (side : Bit)
  deriving DecidableEq, Repr

/-- `n.freq`. -/
def Node.freq : Node → Nat
  | .leaf _ f _ => f
  | .internal _ _ f _ => f

/-- `n.side`. -/
def Node.side : Node → Bit
  | .leaf _ _ b => b
  | .internal _ _ _ b => b

/-- `n.side <- b`. -/
def Node.setSide (b : Bit) : Node → Node
  | .leaf s f _ => .leaf s f b
  | .internal c0 c1 f _ => .internal c0 c1 f b

/-- The leaf symbols of a tree in preorder. -/
def Node.symbols : Node → List Byte
  | .leaf s _ _ => [s]
  | .internal c0 c1 _ _ => c0.symbols ++ c1.symbols

/-- The number of Internal nodes of a tree. -/
def Node.internals : Node → Nat
  | .leaf _ _ _ => 0
  | .internal c0 c1 _ _ => c0.internals + c1.internals + 1

/-- The number of nodes of a tree. -/
def Node.count : Node → Nat
  | .leaf _ _ _ => 1
  | .internal c0 c1 _ _ => c0.count + c1.count + 1

/-- The depth of a tree: 0 for a Leaf. -/
def Node.depth : Node → Nat
  | .leaf _ _ _ => 0
  | .internal c0 c1 _ _ => max c0.depth c1.depth + 1

/-- Every frequency of the tree satisfies `p`. -/
def Node.allFreq (p : Nat → Bool) : Node → Bool
  | .leaf _ f _ => p f
  | .internal c0 c1 f _ => p f && c0.allFreq p && c1.allFreq p

/-- Every child₀ has side 1 and every child₁ side 0 (41_tree_builder.md R125). -/
def Node.sidesOk : Node → Bool
  | .leaf _ _ _ => true
  | .internal c0 c1 _ _ => c0.side && !c1.side && c0.sidesOk && c1.sidesOk

/-- The tree with every frequency 0 and the root's side 0: what the deserializer makes of its serialization
(43_tree_serdes.md R168, R170). -/
def Node.eraseFreq : Node → Node
  | .leaf s _ b => .leaf s 0 b
  | .internal c0 c1 _ b => .internal c0.eraseFreq c1.eraseFreq 0 b

/-- FREQ: 256 counters, indexed by symbol (10_state.md R31). A counter is kept as a natural number (log entry 11). -/
abbrev FreqTable := Vector Nat 256

/-- `F[s]`. -/
def FreqTable.at (F : FreqTable) (s : Byte) : Nat := F[s.toNat]'s.isLt

/-- `F[s] <- F[s] + 1`. -/
def FreqTable.bump (F : FreqTable) (s : Byte) : FreqTable := F.set s.toNat (F.at s + 1) s.isLt

/-- CODE: 256 entries, `none` for INVALID (10_state.md R34). -/
abbrev CodeTable := Vector (Option (List Bit)) 256

/-- `CODE[s]`. -/
def CodeTable.at (T : CodeTable) (s : Byte) : Option (List Bit) := T[s.toNat]'s.isLt

/-- `CODE[s] <- p`. -/
def CodeTable.put (T : CodeTable) (s : Byte) (p : List Bit) : CodeTable := T.set s.toNat (some p) s.isLt

/-- The table with every entry INVALID. -/
def CodeTable.empty : CodeTable := Vector.replicate 256 none

/-- The 256 symbols in ascending order. -/
def allSymbols : List Byte := (List.range 256).map (BitVec.ofNat 8)

end Sys2Proof.Machine
end

