-- ==== Sys2Proof/Machine/Codeword.lean ====
section
/-! DEFINITION. DERIVE_CODES (spec/42_codeword.md R140, R142). -/

namespace Sys2Proof.Machine

/-- `walk(n, p)` of R140: the codeword of a leaf is the sides on the path to it. -/
def walkCodes : Node → List Bit → CodeTable → CodeTable
  | .leaf s _ _, p, T => T.put s p
  | .internal c0 c1 _ _, p, T => walkCodes c1 (p ++ [c1.side]) (walkCodes c0 (p ++ [c0.side]) T)

/-- DERIVE_CODES (R140): the only symbol of a single-Leaf tree has the one-bit codeword `[0]` (R142). -/
def deriveCodes : Node → CodeTable
  | .leaf s _ _ => CodeTable.empty.put s [false]
  | .internal c0 c1 f b => walkCodes (.internal c0 c1 f b) [] CodeTable.empty

end Sys2Proof.Machine
end

