-- ==== Sys2Proof/Machine/HostSyntax.lean ====
section
/-! DEFINITION. The host's accesses and the host-script notation of spec/30_encoding.md R99, R100, as data. -/

namespace Sys2Proof.Machine

/-- The three address spaces of 20_memory.md R60. -/
inductive Space where
  | reg
  | inp
  | out
  deriving DecidableEq, Repr

/-- The STATUS fields a `bne` may name (R99). -/
inductive StatusField where
  | busy
  | done
  | err
  | errcode
  deriving DecidableEq, Repr

/-- What a `wr` writes: an immediate or a host variable (R99). Host variables are named by numbers (log entry 15). -/
inductive HostOperand where
  | imm (v : Word)
  | var (x : Nat)
  deriving DecidableEq, Repr

/-- Host-script statements (R99). `write` and `read` are MemWrite and MemRead of R61 at any offset and width, so that
an access outside the contract of 20_memory.md R62 can be written down too. -/
inductive HostStmt where
  /-- `wr`: MemWrite(space, off, width, v). -/
  | write (sp : Space) (off width : Nat) (v : HostOperand)
  /-- `rd`: x <- MemRead(space, off, width). -/
  | read (sp : Space) (off width : Nat) (x : Nat)
  /-- `<label>:`. -/
  | label (l : Nat)
  /-- `bne x.FIELD, v, l`, or `bne x, v, l` when no field is named. -/
  | bne (x : Nat) (field : Option StatusField) (v : Word) (l : Nat)
  /-- `end`. -/
  | stop
  /-- The reads `rd OUT[0] -> buf[0] ; ... ; rd OUT[n-1] -> buf[n-1]` of `read_out` (R100), n being the value of the
  variable `n`; `buf[i]` is the variable numbered buf + i (log entry 22). -/
  | readBytes (n buf : Nat)
  deriving DecidableEq, Repr

/-- The host contract of spec/20_memory.md R62: REG by aligned 32-bit words, IN and OUT by bytes. -/
def accessAdmitted (sp : Space) (off width : Nat) : Bool :=
  match sp with
  | .reg => width == 4 && off % 4 == 0
  | .inp => width == 1
  | .out => width == 1

end Sys2Proof.Machine
end

