-- ==== Sys2Proof/Machine/State.lean ====
section
/-! DEFINITION. The state of HUFCORE (spec/10_state.md R20 to R40), of its host and of its platform, as plain data; the
reasons a step can stop; the state after reset (R39). -/

namespace Sys2Proof.Machine

/-- HUFCORE never stops with a fault: every error is a result reported in STATUS (60_exceptions.md R240, R250), no host
access faults (R250) and no behaviour is stuck (93_implementation_defined.md). So no constructor, raised by nobody
(log entry 19). -/
inductive Fault where
  deriving DecidableEq, Repr

/-- Why the model gives a step no meaning. -/
inductive Refusal where
  /-- Raised by exec's arm of a command that has no meaning yet. Safe: nothing is claimed of it. -/
  | notModelled (mnemonic : String)
  /-- Raised by a host access outside the contract of 20_memory.md R62 ("The model refuses it"). Safe. -/
  | accessOutsideContract
  /-- Raised by a host `bne` to a label its script does not define, which R99 gives no meaning. Safe (log entry 16). -/
  | labelUndefined
  deriving DecidableEq, Repr

/-- IN or OUT: the bytes that hold a value, by offset, strictly rising. A byte not listed holds no defined value
(R29, R30, R39: "any value"). -/
abbrev Memory := List Host.Cell

/-- The engine's internal tables and registers (10_state.md R31 to R36; CMDWORD stands in `State.cmdWord`). The host
cannot reach them. They keep what the last successful command wrote (log entry 8). -/
structure Engine where
  /-- FREQ, R31. -/
  freq : FreqTable
  /-- NODES and ROOT, R32, as the tree itself (log entry 10). -/
  root : Option Node
  /-- WORK, R33. -/
  work : List Node
  /-- CODE, R34. -/
  code : CodeTable
  /-- ALPHA, R35. -/
  alpha : List Byte
  /-- The content bit sequence, R36. -/
  content : List Bit
  /-- The bit cursor into the content, R36. -/
  cursor : Nat
  /-- The payload walk position, R36. -/
  walk : Option Node
  /-- The output byte count, R36. -/
  outCount : Nat
  deriving DecidableEq, Repr

/-- The host agent (10_state.md R20) running a host script (30_encoding.md R99). It is outside HUFCORE. -/
structure HostAgent where
  /-- The script. -/
  program : List HostStmt
  /-- The statement to run next; at or beyond the end, the host has stopped. -/
  pos : Nat
  /-- How many bytes the running `readBytes` has read. -/
  idx : Nat
  /-- The host variables that hold a value, by number, strictly rising. -/
  vars : List (Nat × Word)
  deriving DecidableEq, Repr

/-- The whole machine: HUFCORE, its build, the host, the platform's RESET events and the model's own counters. -/
structure State where
  /-- The build's parameters (00_scope.md R7). No step changes them. -/
  build : Build
  /-- STATUS.BUSY, R23. -/
  busy : Bool
  /-- STATUS.DONE, R23. -/
  done : Bool
  /-- STATUS.ERRCODE, R23. STATUS.ERR is 1 exactly when this is not 0 (R23, R40). -/
  errcode : BitVec 4
  /-- IN_LEN, R24. -/
  inLen : Word
  /-- OUT_LEN, R25. -/
  outLen : Word
  /-- CMDWORD, R36: meaningful while BUSY = 1. -/
  cmdWord : Word
  /-- IN, R29: the bytes written since reset. -/
  inMem : Memory
  /-- OUT, R30: the bytes that hold a defined value. -/
  outMem : Memory
  /-- The internal tables, R31 to R36. -/
  engine : Engine
  /-- The model's own: how many steps pass before the running command completes (log entry 2). -/
  delay : Nat
  /-- The model's own: how many free values have been drawn (log entry 6). -/
  draws : Nat
  /-- The host. -/
  host : HostAgent
  /-- The RESET events to come: the steps before the first, then between each and the next (log entry 4). -/
  platform : List Nat
  deriving DecidableEq, Repr

/-- The internal tables after reset. DESIGN CHOICE (log entry 8): R39 says "unspecified: any value; never read before a
command writes them". -/
def Engine.reset : Engine :=
  { freq := Vector.replicate 256 0, root := none, work := [], code := CodeTable.empty, alpha := [],
    content := [], cursor := 0, walk := none, outCount := 0 }

/-- A host with no script: it has stopped. -/
def HostAgent.idle : HostAgent := { program := [], pos := 0, idx := 0, vars := [] }

/-- The machine right after reset (10_state.md R39): BUSY, DONE, ERR, ERRCODE, IN_LEN and OUT_LEN 0, no byte of IN or OUT
defined. The build is any legal one (log entry 1); CMDWORD and the tables are a DESIGN CHOICE (log entries 8, 9); no
script is loaded and no further RESET is planned (log entries 4, 18). -/
def State.reset : State :=
  { build := Config.build, busy := false, done := false, errcode := 0#4, inLen := 0#32, outLen := 0#32,
    cmdWord := 0#32, inMem := [], outMem := [], engine := Engine.reset, delay := 0, draws := 0,
    host := HostAgent.idle, platform := [] }

end Sys2Proof.Machine
end

