-- ==== Sys2Proof/Machine/Flags.lean ====
section
/-! DEFINITION. The STATUS register (spec/10_state.md R23) and the error codes (spec/60_exceptions.md R241). -/

namespace Sys2Proof

/-- `code(e)` (R241). -/
def ErrCode.code : ErrCode → BitVec 4
  | .emptyInput => 1#4
  | .truncatedStream => 2#4
  | .unresolvedPayloadBits => 3#4
  | .malformedTree => 4#4
  | .illegalCommand => 5#4
  | .badLength => 6#4
  | .outputOverflow => 7#4

namespace Machine

/-- STATUS.ERR: 1 exactly when ERRCODE is not 0 (R23, R40). -/
def State.err (s : State) : Bool := s.errcode != 0#4

/-- STATUS as the host reads it: BUSY [0], DONE [1], ERR [2], ERRCODE [7:4]; bits [3] and [31:8] are 0 (R23). -/
def State.status (s : State) : Word :=
  (0#24 ++ s.errcode ++ 0#1 ++ BitVec.ofBool s.err ++ BitVec.ofBool s.done ++ BitVec.ofBool s.busy : BitVec 32)

/-- `v.FIELD`: the bits of a STATUS field, as a number (30_encoding.md R99). -/
def StatusField.of (v : Word) : StatusField → Word
  | .busy => (v.extractLsb' 0 1).setWidth 32
  | .done => (v.extractLsb' 1 1).setWidth 32
  | .err => (v.extractLsb' 2 1).setWidth 32
  | .errcode => (v.extractLsb' 4 4).setWidth 32

end Machine

end Sys2Proof
end

