-- ==== Sys2Proof/Machine/Ops.lean ====
section
/-! DEFINITION. The shared operations: memory, the host's register and buffer accesses (spec/20_memory.md R64),
acceptance (spec/10_state.md R27), completion (spec/46_commands.md R226), error completion (spec/60_exceptions.md R250)
and RESET (spec/70_reset_and_hazards.md R270). -/

namespace Sys2Proof.Machine

/-! Sparse data by key, strictly rising: the two buffers and the host's variables. -/

/-- The value at a key. -/
def lookupKey {α : Type} (k : Nat) : List (Nat × α) → Option α
  | [] => none
  | (j, v) :: m => if j = k then some v else lookupKey k m

/-- The list with the value `v` at the key `k`, in its place. -/
def insertKey {α : Type} (k : Nat) (v : α) : List (Nat × α) → List (Nat × α)
  | [] => [(k, v)]
  | (j, w) :: m =>
    if k < j then (k, v) :: (j, w) :: m
    else if k = j then (k, v) :: m
    else (j, w) :: insertKey k v m

/-- The keys rise strictly. -/
def keysRise {α : Type} : List (Nat × α) → Bool
  | [] => true
  | [_] => true
  | (i, _) :: (j, w) :: m => i < j && keysRise ((j, w) :: m)

/-- The byte at an offset; `none` where no byte has a defined value. -/
def Memory.read (m : Memory) (a : Nat) : Option Byte := lookupKey a m

/-- Write one byte. -/
def Memory.write (m : Memory) (a : Nat) (b : Byte) : Memory := insertKey a b m

/-- The canonical form: offsets strictly rising. An unlisted offset reads as no value, so no entry is redundant. -/
def Memory.wf (m : Memory) : Bool := keysRise m

/-- Every listed offset is below a bound. -/
def Memory.below (m : Memory) (cap : Nat) : Bool := m.all (fun c => c.1 < cap)

/-- The bytes from offset `a` on, `n` of them; `none` if one has no defined value. -/
def Memory.readFrom (m : Memory) (a : Nat) : Nat → Option (List Byte)
  | 0 => some []
  | n + 1 =>
    match m.read a, m.readFrom (a + 1) n with
    | some b, some bs => some (b :: bs)
    | _, _ => none

/-- The bytes `y` at the offsets from `a` on, and nothing else. -/
def cellsFrom (a : Nat) : List Byte → Memory
  | [] => []
  | b :: bs => (a, b) :: cellsFrom (a + 1) bs

/-! Free values. -/

/-- Draw a byte: "any value (a fresh draw)" (R64), zero-extended to a word (log entry 6). -/
def drawByte (s : State) : State × Word :=
  ({ s with draws := s.draws + 1 }, (Config.freeByte s.draws).setWidth 32)

/-! The host's accesses, R64. -/

/-- Acceptance of a command word, one step (10_state.md R27). The delay to completion is a free value (R226). It also ends
the error state of the last command (60_exceptions.md R253). -/
def acceptCommand (w : Word) (s : State) : State :=
  { s with
    busy := true, done := false, errcode := 0#4, outLen := 0#32, cmdWord := w
    delay := Config.completionDelay s.draws, draws := s.draws + 1 }

/-- Host read of REG (R64, 10_state.md R21, R26): every other offset reads 0. -/
def readReg (s : State) (off : Nat) : Word :=
  if off = 0x04 then s.status
  else if off = 0x08 then s.inLen
  else if off = 0x0C then s.outLen
  else 0#32

/-- Host write of REG (R64): CMD and IN_LEN when BUSY = 0; every other write is ignored. -/
def writeReg (off : Nat) (v : Word) (s : State) : State :=
  if off = 0x00 then (if s.busy then s else acceptCommand v s)
  else if off = 0x08 then (if s.busy then s else { s with inLen := v })
  else s

/-- A byte of a buffer that the host reads: its value, or a fresh draw where it has none. -/
def readCell (m : Memory) (off : Nat) (s : State) : State × Word :=
  match m.read off with
  | some b => (s, b.setWidth 32)
  | none => drawByte s

/-- Host read of IN (R64). -/
def readIn (s : State) (off : Nat) : State × Word :=
  if off < s.build.inCap then readCell s.inMem off s else (s, 0#32)

/-- Host read of OUT (R64), its cases in the rule's order (log entry 14). -/
def readOut (s : State) (off : Nat) : State × Word :=
  if s.busy then drawByte s
  else if off < s.outLen.toNat then readCell s.outMem off s
  else if off < s.build.outCap then drawByte s
  else (s, 0#32)

/-- Host write of IN (R64). -/
def writeIn (off : Nat) (b : Byte) (s : State) : State :=
  if off < s.build.inCap ∧ s.busy = false then { s with inMem := s.inMem.write off b } else s

/-- MemRead(space, off, n), for an admitted access. -/
def hostRead (sp : Space) (off : Nat) (s : State) : State × Word :=
  match sp with
  | .reg => (s, readReg s off)
  | .inp => readIn s off
  | .out => readOut s off

/-- MemWrite(space, off, n, v), for an admitted access; a byte write takes the low eight bits of `v`. -/
def hostWrite (sp : Space) (off : Nat) (v : Word) (s : State) : State :=
  match sp with
  | .reg => writeReg off v s
  | .inp => writeIn off (v.setWidth 8) s
  | .out => s

/-- Where the platform's address map has an offset of a space (20_memory.md R61, R67). No other rule uses it. -/
def Build.platformAddress (b : Build) (sp : Space) (off : Nat) : Nat :=
  match sp with
  | .reg => b.regBase + off
  | .inp => b.inBase + off
  | .out => b.outBase + off

/-! Completion, R226. -/

/-- OUT_LEN for a result of `n` bytes; beyond 32 bits the spec states no value (log entry 12). -/
def outLenWord (n draw : Nat) : Word :=
  if n < 2 ^ 32 then BitVec.ofNat 32 n else Config.longOutLen draw

/-- Successful completion (R226): the result bytes in OUT, the rest of OUT any value (10_state.md R30). -/
def completeOk (y : List Byte) (s : State) : State :=
  { s with
    busy := false, done := true, errcode := 0#4, outLen := outLenWord y.length s.draws
    outMem := cellsFrom 0 y, draws := s.draws + 1 }

/-- Error completion (R226, R250), what a trap entry is elsewhere: STATUS and OUT_LEN written, OUT any value, nothing else
changed. -/
def completeError (e : ErrCode) (s : State) : State :=
  { s with
    busy := false, done := true, errcode := e.code, outLen := 0#32, outMem := [], draws := s.draws + 1 }

/-- The completion step of R226 for a result. -/
def complete (r : Result (List Byte)) (s : State) : State :=
  match r with
  | .ok y => completeOk y s
  | .error e => completeError e s

/-! RESET, R270. -/

/-- RESET: every piece of HUFCORE's state takes its reset value (R39); a running command is abandoned. The build, the
host and the platform are outside HUFCORE, and free values drawn before are not drawn again. -/
def resetEvent (s : State) : State :=
  { State.reset with build := s.build, host := s.host, platform := s.platform, draws := s.draws }

/-- A RESET arrives now. -/
def State.resetDue (s : State) : Bool := s.platform.head? == some 0

/-- One step less until the next RESET; a RESET that arrives now is taken off. -/
def tickPlatform : List Nat → List Nat
  | [] => []
  | 0 :: rest => rest
  | (n + 1) :: rest => n :: rest

/-- The passing of one step. -/
def State.tick (s : State) : State :=
  { s with delay := s.delay - 1, platform := tickPlatform s.platform }

/-- The running command completes now. -/
def State.engineDue (s : State) : Bool := s.busy && s.delay == 0

end Sys2Proof.Machine
end

