-- ==== Sys2Proof/Machine/Operands.lean ====
section
/-! DEFINITION. The implicit operands of a command (spec/30_encoding.md R83) and the frame of RUN around a codec function
(spec/46_commands.md R221). -/

namespace Sys2Proof.Machine

/-- The input bytes IN[0 .. IN_LEN); `none` if one of them was never written since reset (R221). -/
def State.inputBytes (s : State) : Option (List Byte) := s.inMem.readFrom 0 s.inLen.toNat

/-- OUTPUT_OVERFLOW, checked on a complete result only (R221, D19). -/
def limitOutput (cap : Nat) (r : Result (List Byte)) : Result (List Byte) :=
  match r with
  | .ok y => if cap < y.length then .error .outputOverflow else .ok y
  | .error e => .error e

/-- RUN (R221) of a legal command whose function is `codec`: BAD_LENGTH first, then the function on the input bytes. Input
never written gives an unspecified result, a free value (log entry 5). -/
def runCodec (codec : List Byte → Result (List Byte)) (s : State) : Result (List Byte) :=
  if s.build.inCap < s.inLen.toNat then .error .badLength
  else
    match s.inputBytes with
    | some x => limitOutput s.build.outCap (codec x)
    | none => limitOutput s.build.outCap (Config.unspecifiedResult s.draws)

/-- A command's run and completion. A successful run on defined input leaves its tables in the engine (`after`, log entry
8); a failed one changes only STATUS, OUT_LEN and OUT (60_exceptions.md R250). -/
def runAndComplete (codec : List Byte → Result (List Byte)) (after : List Byte → List Byte → Engine → Engine)
    (s : State) : State :=
  match runCodec codec s, s.inputBytes with
  | .ok y, some x => { completeOk y s with engine := after x y s.engine }
  | .ok y, none => completeOk y s
  | .error e, _ => completeError e s

end Sys2Proof.Machine
end

