-- ==== Sys2Proof/Machine/Payload.lean ====
section
/-! DEFINITION. PAYLOAD_ENCODE, PAYLOAD_DECODE and the reference GREEDY_DECODE (spec/45_payload.md R200, R202, R206). -/

namespace Sys2Proof.Machine

/-- PAYLOAD_ENCODE (R200). Every byte of the input has a valid codeword (R200); an INVALID entry would add no bit. -/
def payloadEncode (T : CodeTable) (x : List Byte) : List Bit := x.flatMap (fun b => (T.at b).getD [])

/-- The child a payload bit selects: 1 is child₀, 0 is child₁ (R206, 30_encoding.md R91). -/
def Node.child (b : Bit) : Node → Node
  | .leaf s f d => .leaf s f d
  | .internal c0 c1 _ _ => if b then c0 else c1

/-- PAYLOAD_DECODE under a single-Leaf root (R206, D6): `out` is what was decoded so far. -/
def leafDecode (sym : Byte) : List Byte → List Bit → Result (List Byte)
  | out, [] => .ok out
  | out, false :: rest => leafDecode sym (out ++ [sym]) rest
  | _, true :: _ => .error .unresolvedPayloadBits

/-- The tree walk of R206 from node `n`: `pending` says that bits of an unfinished codeword were read. -/
def walkDecode (root : Node) : Node → Bool → List Byte → List Bit → Result (List Byte)
  | _, pending, out, [] => if pending then .error .truncatedStream else .ok out
  | n, _, out, b :: rest =>
    match n.child b with
    | .leaf s _ _ => walkDecode root root false (out ++ [s]) rest
    | .internal c0 c1 f d => walkDecode root (.internal c0 c1 f d) true out rest

/-- PAYLOAD_DECODE (R206). -/
def payloadDecode (root : Node) (P : List Bit) : Result (List Byte) :=
  match root with
  | .leaf s _ _ => leafDecode s [] P
  | .internal c0 c1 f d => walkDecode (.internal c0 c1 f d) (.internal c0 c1 f d) false [] P

/-- The symbol whose codeword is `buf`, the least one if there were several (R202, R203). -/
def matchCode (T : CodeTable) (buf : List Bit) : Option Byte := allSymbols.find? (fun s => T.at s == some buf)

/-- `buf` is a proper prefix of some codeword (R202). -/
def prefixOfCode (T : CodeTable) (buf : List Bit) : Bool :=
  allSymbols.any fun s =>
    match T.at s with
    | none => false
    | some c => buf.isPrefixOf c && buf.length < c.length

/-- The loop of GREEDY_DECODE (R202). -/
def greedyLoop (T : CodeTable) : List Bit → List Byte → List Bit → Result (List Byte)
  | buf, out, [] =>
    if buf = [] then .ok out
    else if prefixOfCode T buf then .error .truncatedStream
    else .error .unresolvedPayloadBits
  | buf, out, b :: rest =>
    match matchCode T (buf ++ [b]) with
    | some s => greedyLoop T [] (out ++ [s]) rest
    | none => greedyLoop T (buf ++ [b]) out rest

/-- GREEDY_DECODE (R202): no stage of the block, but the function its tree walk must agree with (R207). -/
def greedyDecode (T : CodeTable) (P : List Bit) : Result (List Byte) := greedyLoop T [] [] P

end Sys2Proof.Machine
end

