-- ==== Sys2Proof/Machine/TreeBuilder.lean ====
section
/-! DEFINITION. FREQ_COUNT and BUILD_TREE (spec/41_tree_builder.md R120 to R125). -/

namespace Sys2Proof.Machine

/-- FREQ_COUNT (R120). -/
def freqCount (x : List Byte) : FreqTable := x.foldl FreqTable.bump (Vector.replicate 256 0)

/-- The Leaves of the counters `F[s], F[s+1], ...`: one for each counter above 0, in order. -/
def leavesFrom (s : Nat) : List Nat → List Node
  | [] => []
  | c :: cs =>
    if 0 < c then .leaf (BitVec.ofNat 8 s) c false :: leavesFrom (s + 1) cs else leavesFrom (s + 1) cs

/-- The initial working list (R122): one Leaf per present symbol, in ascending symbol order, 0x00 first (D7). -/
def initWork (F : FreqTable) : List Node := leavesFrom 0 F.toList

/-- The scan of R123 over the nodes from index `i` on: `best` at index `k` is the least so far; only a strictly smaller
frequency displaces it. -/
def scanMin (best : Node) (k i : Nat) : List Node → Nat
  | [] => k
  | n :: rest => if n.freq < best.freq then scanMin n i (i + 1) rest else scanMin best k (i + 1) rest

/-- `firstMin(W)` (R123), for a non-empty list. -/
def firstMin : List Node → Nat
  | [] => 0
  | n :: rest => scanMin n 0 1 rest

/-- "select the node with minimum frequency, remove it" (R124): the node and the list without it. -/
def takeMin (W : List Node) : Option (Node × List Node) :=
  match W[firstMin W]? with
  | some n => some (n, W.eraseIdx (firstMin W))
  | none => none

/-- The Internal node of a merge: first minimum child₀ with side 1, second minimum child₁ with side 0 (R124, R125). -/
def mergeNodes (A B : Node) : Node :=
  .internal (A.setSide true) (B.setSide false) (A.freq + B.freq) false

/-- One pass of the loop of R124; a list of fewer than two nodes stays as it is. The merged node goes to the end (D8). -/
def mergeStep (W : List Node) : List Node :=
  match takeMin W with
  | none => W
  | some (A, W₁) =>
    match takeMin W₁ with
    | none => W
    | some (B, W₂) => W₂ ++ [mergeNodes A B]

/-- The loop of R124, `while |W| > 1`, run at most `fuel` times; each pass shortens the list by one. -/
def mergeLoop : Nat → List Node → List Node
  | 0, W => W
  | fuel + 1, W => if 1 < W.length then mergeLoop fuel (mergeStep W) else W

/-- WORK as the loop leaves it. -/
def buildWork (F : FreqTable) : List Node := mergeLoop (initWork F).length (initWork F)

/-- BUILD_TREE (R124); `none` for the empty table, with which it is never called (R120). -/
def buildTree (F : FreqTable) : Option Node := (buildWork F).head?

end Sys2Proof.Machine
end

