-- ==== Sys2Proof/Machine/TreeSerdes.lean ====
section
/-! DEFINITION. SERIALIZE_TREE and DESERIALIZE_TREE (spec/43_tree_serdes.md R160, R165, R166). -/

namespace Sys2Proof.Machine

/-- SERIALIZE_TREE (R160): preorder, `1` and the symbol for a Leaf, `0` and both children for an Internal node. -/
def serializeTree : Node → List Bit
  | .leaf s _ _ => true :: bits8 s
  | .internal c0 c1 _ _ => false :: (serializeTree c0 ++ serializeTree c1)

/-- The parser's position and tables: the content bits not yet read, ALPHA, and nInt (R165). -/
structure ParseState where
  rest : List Bit
  alpha : List Byte
  nInt : Nat
  deriving DecidableEq, Repr

/-- The eight symbol bits of a leaf, most significant first (R165, D9). -/
def readSymbol : List Bit → Result (Byte × List Bit)
  | b7 :: b6 :: b5 :: b4 :: b3 :: b2 :: b1 :: b0 :: rest =>
    .ok (byteOfBits [b7, b6, b5, b4, b3, b2, b1, b0], rest)
  | _ => .error .truncatedStream

/-- The leaf case of `node()` (R165), after its tag: a repeated symbol is malformed (R166 a). -/
def parseLeaf (st : ParseState) : Result (Node × ParseState) :=
  match readSymbol st.rest with
  | .error e => .error e
  | .ok (s, rest) =>
    if st.alpha.contains s then .error .malformedTree
    else .ok (.leaf s 0 false, { st with rest := rest, alpha := st.alpha ++ [s] })

/-- `node()` of R165. Each call reads a tag bit, so that a fuel above the number of content bits is never used up; a 256th
Internal node is malformed (R166 b). -/
def parseNode : Nat → ParseState → Result (Node × ParseState)
  | 0, _ => .error .truncatedStream
  | fuel + 1, st =>
    match st.rest with
    | [] => .error .truncatedStream
    | true :: rest => parseLeaf { st with rest := rest }
    | false :: rest =>
      if st.nInt = Config.maxInternal then .error .malformedTree
      else
        match parseNode fuel { st with rest := rest, nInt := st.nInt + 1 } with
        | .error e => .error e
        | .ok (c0, st₀) =>
          match parseNode fuel st₀ with
          | .error e => .error e
          | .ok (c1, st₁) => .ok (.internal (c0.setSide true) (c1.setSide false) 0 false, st₁)

/-- What DESERIALIZE_TREE reports: the root, the number k of bits consumed, ALPHA (R165). -/
structure ParsedTree where
  root : Node
  used : Nat
  alpha : List Byte
  deriving DecidableEq, Repr

/-- DESERIALIZE_TREE (R165). -/
def deserializeTree (C : List Bit) : Result ParsedTree :=
  match parseNode (C.length + 1) { rest := C, alpha := [], nInt := 0 } with
  | .error e => .error e
  | .ok (root, st) => .ok { root := root, used := C.length - st.rest.length, alpha := st.alpha }

end Sys2Proof.Machine
end

