-- ==== Sys2Proof/Machine/Commands.lean ====
section
/-! DEFINITION. ENCODE_FN and DECODE_FN (spec/46_commands.md R220), the commands ENCODE (R222) and DECODE (R223), and an
illegal command (R224). -/

namespace Sys2Proof.Machine

/-- The content ENCODE_FN packs for an input whose tree is `t`: T ++ P (R220). -/
def encodeContent (t : Node) (x : List Byte) : List Bit := serializeTree t ++ payloadEncode (deriveCodes t) x

/-- ENCODE_FN (R220). Only the empty input has no tree, and it is rejected first (41_tree_builder.md R120; log entry 17). -/
def encodeFn (x : List Byte) : Result (List Byte) :=
  if x = [] then .error .emptyInput
  else
    match buildTree (freqCount x) with
    | none => .error .emptyInput
    | some t => .ok (pack (encodeContent t x))

/-- DECODE_FN (R220). -/
def decodeFn (x : List Byte) : Result (List Byte) :=
  match unpack x with
  | .error e => .error e
  | .ok C =>
    match deserializeTree C with
    | .error e => .error e
    | .ok p => payloadDecode p.root (C.drop p.used)

/-- The engine's tables after a successful ENCODE of `x` to `y`. -/
def Engine.afterEncode (x y : List Byte) (e : Engine) : Engine :=
  match buildTree (freqCount x) with
  | none => e
  | some t =>
    { e with
      freq := freqCount x, work := buildWork (freqCount x), root := some t, code := deriveCodes t
      content := encodeContent t x, cursor := (encodeContent t x).length, outCount := y.length }

/-- The engine's tables after a successful DECODE of `x` to `y`. -/
def Engine.afterDecode (x y : List Byte) (e : Engine) : Engine :=
  match unpack x with
  | .error _ => e
  | .ok C =>
    match deserializeTree C with
    | .error _ => e
    | .ok p =>
      { e with
        root := some p.root, alpha := p.alpha, content := C, cursor := C.length, walk := some p.root
        outCount := y.length }

/-- ENCODE (R222): RUN and the completion step. -/
def execEncode (s : State) : Host.Outcome State Fault Refusal :=
  .next (runAndComplete encodeFn Engine.afterEncode s)

/-- DECODE (R223): RUN and the completion step. -/
def execDecode (s : State) : Host.Outcome State Fault Refusal :=
  .next (runAndComplete decodeFn Engine.afterDecode s)

/-- The completion of an illegal command (R224): nothing is read. -/
def execIllegal (s : State) : State := completeError .illegalCommand s

end Sys2Proof.Machine
end

