-- ==== Sys2Proof/Machine/Engine.lean ====
section
/-! DEFINITION. The engine's step: the command CMDWORD names, run and completed (spec/46_commands.md R221, R226). -/

namespace Sys2Proof.Machine

/-- The engine's one step kind (spec/10_state.md R20, spec/46_commands.md R226): RUN of CMDWORD, then
completion; acceptance was a step before (log entry 20). -/
def engineStep (s : State) : Host.Outcome State Fault Refusal :=
  match decodeCmd s.cmdWord with
  | some i => exec i s
  | none => .next (execIllegal s)

end Sys2Proof.Machine
end

