-- ==== Sys2Proof/Machine/HostScript.lean ====
section
/-! DEFINITION. The host running its script (spec/30_encoding.md R99) and the pseudo-operations (R100). -/

namespace Sys2Proof.Machine

/-- The value of a host variable: what was last read into it (R99; log entry 15). -/
def HostAgent.value (h : HostAgent) (x : Nat) : Word := (lookupKey x h.vars).getD (Config.unsetVar x)

/-- Read a value into a host variable. -/
def HostAgent.assign (x : Nat) (v : Word) (h : HostAgent) : HostAgent := { h with vars := insertKey x v h.vars }

/-- The value a `wr` writes. -/
def HostAgent.operand (h : HostAgent) : HostOperand → Word
  | .imm v => v
  | .var x => h.value x

/-- Go on to the next statement. -/
def HostAgent.advance (h : HostAgent) : HostAgent := { h with pos := h.pos + 1, idx := 0 }

/-- The statement the host runs next; `none` when it has stopped. -/
def HostAgent.current (h : HostAgent) : Option HostStmt := h.program[h.pos]?

/-- The position of a label in a script. -/
def findLabel (l : Nat) (p : List HostStmt) : Option Nat := p.findIdx? (· == HostStmt.label l)

/-- A `bne`'s left side: the whole variable, or one field of it. -/
def bneValue (v : Word) : Option StatusField → Word
  | none => v
  | some f => f.of v

/-- MemRead into a variable; the host stays where it is. -/
def readInto (sp : Space) (off x : Nat) (s : State) : State :=
  let r := hostRead sp off s
  { r.1 with host := r.1.host.assign x r.2 }

/-- One host statement (R99, R62). -/
def hostExec (st : HostStmt) (s : State) : Host.Outcome State Fault Refusal :=
  match st with
  | .write sp off width v =>
    if accessAdmitted sp off width then
      .next { hostWrite sp off (s.host.operand v) s with host := s.host.advance }
    else .refused .accessOutsideContract
  | .read sp off width x =>
    if accessAdmitted sp off width then
      let t := readInto sp off x s
      .next { t with host := t.host.advance }
    else .refused .accessOutsideContract
  | .label _ => .next { s with host := s.host.advance }
  | .bne x field v l =>
    if bneValue (s.host.value x) field = v then .next { s with host := s.host.advance }
    else
      match findLabel l s.host.program with
      | some p => .next { s with host := { s.host with pos := p, idx := 0 } }
      | none => .refused .labelUndefined
  | .stop => .next { s with host := { s.host with pos := s.host.program.length, idx := 0 } }
  | .readBytes n buf =>
    if s.host.idx < (s.host.value n).toNat then
      let t := readInto .out s.host.idx (buf + s.host.idx) s
      .next { t with host := { t.host with idx := s.host.idx + 1 } }
    else .next { s with host := s.host.advance }

/-- The host's turn: its next statement, or nothing when it has stopped (log entry 21). -/
def hostTurn (s : State) : Host.Outcome State Fault Refusal :=
  match s.host.current with
  | none => .next s
  | some st => hostExec st s

/-- Register offsets (R99, 10_state.md R21). -/
def regCMD : Nat := 0x00
def regSTATUS : Nat := 0x04
def regINLEN : Nat := 0x08
def regOUTLEN : Nat := 0x0C

/-- The writes `wr IN[i], b(i)` of `load_in`, from offset `i` on (R100). Each `b(i)` is an 8-bit immediate or a host
variable (R99). -/
def loadBytes (i : Nat) : List HostOperand → List HostStmt
  | [] => []
  | b :: bs => .write .inp i 1 b :: loadBytes (i + 1) bs

/-- `load_in b0, ..., b(m-1)` (R100). DESIGN CHOICE (log entry 22): for 2^32 operands or more, m is no 32-bit immediate (R99)
and the spec gives the IN_LEN write no value; here it writes m mod 2^32. -/
def loadIn (bs : List HostOperand) : List HostStmt :=
  loadBytes 0 bs ++ [.write .reg regINLEN 4 (.imm (BitVec.ofNat 32 bs.length))]

/-- `run <CMD>` (R100), with the label `w` and the variable `s` for STATUS. DESIGN CHOICE (log entry 22): R100 does not say
what `<CMD>` ranges over; here it is any immediate 32-bit word, and no host variable. -/
def runCmd (cmd : Word) (w s : Nat) : List HostStmt :=
  [.write .reg regCMD 4 (.imm cmd), .label w, .read .reg regSTATUS 4 s, .bne s (some .busy) 0#32 w]

/-- `read_out -> buf` (R100), with the variable `n` for OUT_LEN. -/
def readOutTo (n buf : Nat) : List HostStmt := [.read .reg regOUTLEN 4 n, .readBytes n buf]

end Sys2Proof.Machine
end

