-- ==== Sys2Proof/Machine/Step.lean ====
section
/-! DEFINITION. One step of the machine: RESET, a completion, or the host's turn. -/

namespace Sys2Proof.Machine

/-- One step. A RESET that arrives now comes first (70_reset_and_hazards.md R270); else the running command completes
when its delay is over (R226); else the host takes its turn (20_memory.md R69; log entry 3). -/
def step (s : State) : Host.Outcome State Fault Refusal :=
  if s.resetDue then .next (resetEvent s.tick)
  else if s.engineDue then engineStep s.tick
  else hostTurn s.tick

/-- `s` with the command word `w` accepted (10_state.md R27) and due to complete in the very next step (log entry 18). -/
def State.withFetchWord (s : State) (nbits w : Nat) : State :=
  { s with
    busy := true, done := false, errcode := 0#4, outLen := 0#32, cmdWord := tableWord nbits w, delay := 0
    platform := s.platform.dropWhile (· == 0) }

end Sys2Proof.Machine
end

