-- ==== Sys2Proof/WellFormed.lean ====
section
/-! DEFINITION. Well-formed commands, builds and host scripts. -/

namespace Sys2Proof

/-- Every command is well formed: a command word has no operand field (spec/30_encoding.md R83). -/
def Instr.wellFormed : Instr → Bool
  | .encode => true
  | .decode => true

/-- The ranges of spec/00_scope.md R7. -/
def Build.wf (b : Build) : Bool :=
  1 ≤ b.inCap && b.inCap ≤ 2 ^ 32 - 1 && 1 ≤ b.outCap && b.inCap + 1 ≤ 2 ^ b.cntWidth

namespace Machine

/-- The labels a script defines. -/
def scriptLabels : List HostStmt → List Nat
  | [] => []
  | .label l :: rest => l :: scriptLabels rest
  | .write _ _ _ _ :: rest => scriptLabels rest
  | .read _ _ _ _ :: rest => scriptLabels rest
  | .bne _ _ _ _ :: rest => scriptLabels rest
  | .stop :: rest => scriptLabels rest
  | .readBytes _ _ :: rest => scriptLabels rest

/-- The immediate of a one-byte `wr` has 8 bits (R99: "v8 is an 8-bit immediate or a host variable"). -/
def HostOperand.fits (width : Nat) : HostOperand → Bool
  | .imm v => width != 1 || v.toNat < 2 ^ 8
  | .var _ => true

/-- One statement of a script that defines `labels`. -/
def HostStmt.wellFormed (labels : List Nat) : HostStmt → Bool
  | .write sp off width v => accessAdmitted sp off width && v.fits width
  | .read sp off width _ => accessAdmitted sp off width
  | .label _ => true
  | .bne _ _ _ l => labels.contains l
  | .stop => true
  | .readBytes _ _ => true

/-- A script whose accesses keep the contract of R62, whose byte immediates have 8 bits, that jumps only to labels it defines and defines each once (R99). -/
def scriptWellFormed (p : List HostStmt) : Bool :=
  decide (scriptLabels p).Nodup && p.all (HostStmt.wellFormed (scriptLabels p))

end Machine

end Sys2Proof
end

