-- ==== Sys2Proof/Safety.lean ====
section
/-! DEFINITION. What the claims call a legal state, a completed command and a final state. -/

namespace Sys2Proof.Machine

/-- The legal combinations of (BUSY, DONE, ERR) of spec/10_state.md R23, and ERRCODE in the range produced
(spec/60_exceptions.md R241). -/
def State.statusLegal (s : State) : Prop :=
  (s.busy = false ∧ s.done = false ∧ s.err = false) ∨
  (s.busy = true ∧ s.done = false ∧ s.err = false) ∨
  (s.busy = false ∧ s.done = true ∧ s.errcode.toNat ≤ 7)

/-- IN and OUT in canonical form and inside their capacities (20_memory.md R60). -/
def State.buffersLegal (s : State) : Prop :=
  s.inMem.wf = true ∧ s.inMem.below s.build.inCap = true ∧
  s.outMem.wf = true ∧ s.outMem.below s.build.outCap = true

/-- OUT_LEN ≤ OUT_CAP (10_state.md R25); OUT[0 .. OUT_LEN) holds bytes (R30); OUT_LEN is 0 while a command runs and after a
failed one (R25). -/
def State.resultLegal (s : State) : Prop :=
  s.outLen.toNat ≤ s.build.outCap ∧
  (∀ i < s.outLen.toNat, (s.outMem.read i).isSome = true) ∧
  (s.done = false ∨ s.err = true → s.outLen = 0#32)

/-- The invariant of the host-visible machine. -/
structure State.Inv (s : State) : Prop where
  build : s.build.wf = true
  status : s.statusLegal
  buffers : s.buffersLegal
  result : s.resultLegal
  vars : keysRise s.host.vars = true

/-- A tree the node store can hold (10_state.md R32). -/
def Node.bounded (b : Build) (t : Node) : Prop :=
  t.symbols.Nodup ∧ t.symbols.length ≤ Config.maxLeaves ∧ t.internals ≤ Config.maxInternal ∧
  t.count ≤ Config.maxNodes ∧ t.allFreq (fun f => f < 2 ^ b.cntWidth) = true

/-- The sizes of the internal tables (10_state.md R31 to R36). -/
structure Engine.Bounded (b : Build) (e : Engine) : Prop where
  freq : ∀ s, e.freq.at s < 2 ^ b.cntWidth
  root : ∀ t, e.root = some t → t.bounded b
  work : e.work.length ≤ Config.maxLeaves ∧ ∀ t ∈ e.work, t.bounded b
  code : ∀ s c, e.code.at s = some c → 1 ≤ c.length ∧ c.length ≤ Config.maxCodeLen
  alpha : e.alpha.Nodup ∧ e.alpha.length ≤ Config.maxLeaves
  cursor : e.cursor ≤ e.content.length
  walk : ∀ t, e.walk = some t → t.bounded b
  outCount : e.outCount ≤ b.outCap

/-- What no command changes at its completion (46_commands.md R226, 60_exceptions.md R250): the build, IN_LEN, every byte of
IN, CMDWORD, and what is outside HUFCORE. -/
structure CommandFrame (s t : State) : Prop where
  build : t.build = s.build
  inLen : t.inLen = s.inLen
  inMem : t.inMem = s.inMem
  inBytes : ∀ a, t.inMem.read a = s.inMem.read a
  cmdWord : t.cmdWord = s.cmdWord
  host : t.host = s.host
  platform : t.platform = s.platform
  delay : t.delay = s.delay

/-- From `s`, a command has completed in `t` with the result bytes `y` (46_commands.md R226): STATUS 0x00000002, the bytes in
OUT[0 .. |y|), no defined value elsewhere in OUT (10_state.md R30). -/
structure CommandSucceeded (y : List Byte) (s t : State) : Prop where
  busy : t.busy = false
  done : t.done = true
  err : t.err = false
  errcode : t.errcode = 0#4
  outLen : t.outLen.toNat = y.length
  outBytes : ∀ i (h : i < y.length), t.outMem.read i = some y[i]
  outRest : ∀ i, y.length ≤ i → t.outMem.read i = none
  frame : CommandFrame s t

/-- From `s`, a command has completed in `t` with the error `e` (46_commands.md R226, 60_exceptions.md R250): OUT_LEN 0, no
byte of OUT defined, the internal tables as they were. -/
structure CommandFailed (e : ErrCode) (s t : State) : Prop where
  busy : t.busy = false
  done : t.done = true
  err : t.err = true
  errcode : t.errcode = e.code
  outLen : t.outLen = 0#32
  outBytes : ∀ i, t.outMem.read i = none
  engine : t.engine = s.engine
  frame : CommandFrame s t

/-- The final states of a host program (46_commands.md R227): the host has ended and BUSY = 0. -/
def State.final (s : State) : Prop := s.host.current = none ∧ s.busy = false

/-- Every node's frequency is the sum of the counts of the leaves below it (41_tree_builder.md R126). -/
def Node.weighs (F : FreqTable) : Node → Prop
  | .leaf s f _ => f = F.at s
  | .internal c0 c1 f _ => f = c0.freq + c1.freq ∧ c0.weighs F ∧ c1.weighs F

/-- The number of present symbols, n (41_tree_builder.md R121). -/
def presentCount (F : FreqTable) : Nat := (allSymbols.filter (fun s => 0 < F.at s)).length

/-- The payload length Σ_s F[s]·|CODE[s]| (45_payload.md R201). -/
def payloadLength (F : FreqTable) (T : CodeTable) : Nat :=
  (allSymbols.map (fun s => F.at s * ((T.at s).getD []).length)).sum

end Sys2Proof.Machine
end

