-- ==== Sys2Proof/Certificates/Slice0/Obligations.lean ====
section
/-! DEFINITION. The statements for the provers, one `def Obligations.<Name> : Prop` each. Each docstring names the rule of
spec/ it formalises, or the log entry it rests on. -/

open Sys2Proof Sys2Proof.Machine

/-! ## The command word (spec/30_encoding.md) -/

/-- Sanity: words written out from the opcode table and six illegal words of 95_test_vectors.md decode as the table says. -/
def Obligations.TableWordsDecode : Prop :=
  decodeCmd 0x00000001#32 = some .encode ∧ decodeCmd 0x00000002#32 = some .decode ∧
  decodeCmd 0x00000000#32 = none ∧ decodeCmd 0x00000003#32 = none ∧ decodeCmd 0x000000FF#32 = none ∧
  decodeCmd 0x00000101#32 = none ∧ decodeCmd 0x80000002#32 = none ∧ decodeCmd 0xFFFFFFFF#32 = none

/-- R81: a word is ENCODE exactly when RSV = 0 and OP = 0x01, DECODE exactly when RSV = 0 and OP = 0x02, and every other word
is illegal. -/
def Obligations.OpcodeMapIsTotal : Prop :=
  ∀ w : Word,
    (decodeCmd w = some .encode ↔ rsvField w = 0#24 ∧ opField w = 0x01#8) ∧
    (decodeCmd w = some .decode ↔ rsvField w = 0#24 ∧ opField w = 0x02#8) ∧
    (decodeCmd w = none ↔ rsvField w ≠ 0#24 ∨ (opField w ≠ 0x01#8 ∧ opField w ≠ 0x02#8))

/-- Decode and encode agree, both ways: a command's word decodes to it, and only that word does. -/
def Obligations.DecodeEncodeAgree : Prop :=
  (∀ i : Instr, i.wellFormed = true → decodeCmd (encodeCmd i) = some i) ∧
  (∀ (w : Word) (i : Instr), decodeCmd w = some i → w = encodeCmd i)

/-! ## Steps of a command -/

/-- A step runs the decoded command: when a command runs (BUSY = 1), its delay is over and no RESET arrives, and CMDWORD decodes
to a well-formed command, the step is exec of it. Around exec the step only counts down the next RESET. -/
def Obligations.StepRunsDecodedCommand : Prop :=
  ∀ (s : State) (i : Instr), s.busy = true → s.delay = 0 → s.resetDue = false → i.wellFormed = true →
    decodeCmd s.cmdWord = some i →
    step s = exec i { s with platform := tickPlatform s.platform }

/-- The fetch of the host interface: with a command's word placed as accepted and due, the very next step runs exactly it
(log entry 18). -/
def Obligations.FetchWordRunsNext : Prop :=
  ∀ (s : State) (i : Instr), i.wellFormed = true →
    step (s.withFetchWord 32 (encodeCmd i).toNat) = exec i (s.withFetchWord 32 (encodeCmd i).toNat).tick

/-- 46_commands.md R224, 60_exceptions.md R247: the completion of an illegal command word reports ILLEGAL_COMMAND (STATUS
0x00000056), whatever IN_LEN and IN hold. Nothing else changes (R226, R250) but the model's own count of free values drawn
(log entry 20) and countdown to the next RESET (log entry 4); that a delay counts steps is log entry 2. -/
def Obligations.IllegalCommandCompletes : Prop :=
  ∀ s : State, s.busy = true → s.delay = 0 → s.resetDue = false →
    s.cmdWord ≠ 0x00000001#32 → s.cmdWord ≠ 0x00000002#32 →
    ∃ t, step s = .next t ∧ CommandFailed .illegalCommand { s with platform := tickPlatform s.platform } t ∧
      t.errcode = 5#4 ∧ t.status = 0x00000056#32

/-! ## ENCODE and DECODE (spec/46_commands.md) -/

/-- R220: ENCODE_FN and DECODE_FN are the composition of the stages. -/
def Obligations.CodecFunctionsCompose : Prop :=
  encodeFn [] = .error .emptyInput ∧
  (∀ x : List Byte, x ≠ [] → ∃ t, buildTree (freqCount x) = some t ∧
    encodeFn x = .ok (pack (serializeTree t ++ payloadEncode (deriveCodes t) x))) ∧
  (∀ (x : List Byte) (e : ErrCode), unpack x = .error e → decodeFn x = .error e) ∧
  (∀ (x : List Byte) (C : List Bit) (e : ErrCode), unpack x = .ok C → deserializeTree C = .error e →
    decodeFn x = .error e) ∧
  (∀ (x : List Byte) (C : List Bit) (p : ParsedTree), unpack x = .ok C → deserializeTree C = .ok p →
    decodeFn x = payloadDecode p.root (C.drop p.used))

/-- ENCODE's result (46_commands.md R222, R226): on a non-empty input of defined bytes within IN_CAP, whose unit fits in OUT_CAP
and whose length fits in OUT_LEN, ENCODE completes with exactly the bytes of ENCODE_FN's unit, and changes nothing the host can
see but STATUS, OUT_LEN and OUT. The internal tables are rewritten (log entry 8; TablesAfterSuccess) and the count of free
values rises (log entry 20). The bound 2^32 is the model's (log entry 12). -/
def Obligations.EncodeWritesTheUnit : Prop :=
  ∀ (s : State) (x : List Byte), s.inLen.toNat ≤ s.build.inCap → s.inputBytes = some x → x ≠ [] →
    ∃ tree u, buildTree (freqCount x) = some tree ∧
      u = pack (serializeTree tree ++ payloadEncode (deriveCodes tree) x) ∧
      (u.length ≤ s.build.outCap → u.length < 2 ^ 32 →
        ∃ t, exec .encode s = .next t ∧ CommandSucceeded u s t ∧ t.status = 0x00000002#32)

/-- DECODE's result (46_commands.md R223, R226): on an input of defined bytes within IN_CAP, DECODE completes with DECODE_FN's
bytes when they fit, and with its error when it has one; nothing the host can see changes but STATUS, OUT_LEN and OUT. On
success the internal tables are rewritten (log entry 8; TablesAfterSuccess), on an error they are kept; on both paths the
count of free values rises (log entry 20). The bound 2^32 is the model's (log entry 12). -/
def Obligations.DecodeWritesTheBytes : Prop :=
  ∀ (s : State) (x : List Byte), s.inLen.toNat ≤ s.build.inCap → s.inputBytes = some x →
    (∀ y, decodeFn x = .ok y → y.length ≤ s.build.outCap → y.length < 2 ^ 32 →
      ∃ t, exec .decode s = .next t ∧ CommandSucceeded y s t ∧ t.status = 0x00000002#32) ∧
    (∀ e, decodeFn x = .error e → ∃ t, exec .decode s = .next t ∧ CommandFailed e s t)

/-- R242: ENCODE of IN_LEN = 0 completes with EMPTY_INPUT (code 1), and DECODE never raises it. -/
def Obligations.EmptyInputOnlyOnEncode : Prop :=
  (∀ s : State, s.inLen = 0#32 → ∃ t, exec .encode s = .next t ∧ CommandFailed .emptyInput s t ∧ t.errcode = 1#4) ∧
  (∀ (s t : State) (x : List Byte), s.inputBytes = some x → exec .decode s = .next t → t.errcode ≠ 1#4)

/-- R248: ENCODE and DECODE raise BAD_LENGTH (code 6) when IN_LEN > IN_CAP, before any byte of IN is read (also when none is
defined); on defined input they raise it only then. -/
def Obligations.BadLengthExactlyOverCapacity : Prop :=
  (∀ (i : Instr) (s : State), s.build.inCap < s.inLen.toNat →
    ∃ t, exec i s = .next t ∧ CommandFailed .badLength s t ∧ t.errcode = 6#4) ∧
  (∀ (i : Instr) (s t : State) (x : List Byte), s.inputBytes = some x → s.inLen.toNat ≤ s.build.inCap →
    exec i s = .next t → t.errcode ≠ 6#4)

/-- R249: ENCODE and DECODE raise OUTPUT_OVERFLOW (code 7) when the complete result is longer than OUT_CAP; on defined input
they raise it only then. -/
def Obligations.OverflowExactlyOnLongResult : Prop :=
  (∀ (s : State) (x y : List Byte), s.inLen.toNat ≤ s.build.inCap → s.inputBytes = some x → s.build.outCap < y.length →
    (encodeFn x = .ok y → ∃ t, exec .encode s = .next t ∧ CommandFailed .outputOverflow s t ∧ t.errcode = 7#4) ∧
    (decodeFn x = .ok y → ∃ t, exec .decode s = .next t ∧ CommandFailed .outputOverflow s t ∧ t.errcode = 7#4)) ∧
  (∀ (s t : State) (x : List Byte), s.inputBytes = some x →
    (exec .encode s = .next t → t.errcode = 7#4 → ∃ y, encodeFn x = .ok y ∧ s.build.outCap < y.length) ∧
    (exec .decode s = .next t → t.errcode = 7#4 → ∃ y, decodeFn x = .ok y ∧ s.build.outCap < y.length))

/-- No behaviour is stuck (46_commands.md R226): both commands complete from every state, also on input never written, whose
result is a free value (log entry 5). -/
def Obligations.EveryCommandCompletes : Prop :=
  ∀ (i : Instr) (s : State), ∃ t, exec i s = .next t ∧ t.busy = false ∧ t.done = true

/-- The frame of both commands, on every path (46_commands.md R226, 60_exceptions.md R250): the build, IN_LEN, every byte of IN,
CMDWORD, the host and the platform are unchanged; an error changes nothing but STATUS, OUT_LEN, OUT and the count of free
values. -/
def Obligations.CommandsKeepTheFrame : Prop :=
  ∀ (i : Instr) (s t : State), exec i s = .next t →
    CommandFrame s t ∧
    (t.err = true →
      t = { s with busy := false, done := true, errcode := t.errcode, outLen := 0#32, outMem := [], draws := t.draws })

/-- The internal tables after a successful command on defined input: the model's choice (log entry 8), no rule of the spec.
The cursor stands at the end of the content, the output byte count is the result's length, and a DECODE's walk ends at the
root (log entry 10). ENCODE leaves ALPHA and the walk position, DECODE leaves FREQ, WORK and CODE. -/
def Obligations.TablesAfterSuccess : Prop :=
  (∀ (s t : State) (x : List Byte), s.inputBytes = some x → exec .encode s = .next t → t.err = false →
    t.engine.freq = freqCount x ∧ t.engine.root = buildTree (freqCount x) ∧
    (∀ tree, buildTree (freqCount x) = some tree → t.engine.code = deriveCodes tree ∧ t.engine.work = [tree] ∧
      t.engine.content = serializeTree tree ++ payloadEncode (deriveCodes tree) x) ∧
    t.engine.cursor = t.engine.content.length ∧ (∃ y, encodeFn x = .ok y ∧ t.engine.outCount = y.length) ∧
    t.engine.alpha = s.engine.alpha ∧ t.engine.walk = s.engine.walk) ∧
  (∀ (s t : State) (x : List Byte), s.inputBytes = some x → exec .decode s = .next t → t.err = false →
    (∃ C p, unpack x = .ok C ∧ deserializeTree C = .ok p ∧ t.engine.content = C ∧ t.engine.root = some p.root ∧
      t.engine.walk = some p.root ∧ t.engine.alpha = p.alpha) ∧
    t.engine.cursor = t.engine.content.length ∧ (∃ y, decodeFn x = .ok y ∧ t.engine.outCount = y.length) ∧
    t.engine.freq = s.engine.freq ∧ t.engine.work = s.engine.work ∧ t.engine.code = s.engine.code)

/-- Nothing else reaches a result (10_state.md R37, R272; 60_exceptions.md R254): two states that agree on the build, IN_LEN, IN and
the free values drawn give the same STATUS, OUT_LEN and OUT, whatever the tables, the old OUT and the host hold. -/
def Obligations.ResultDependsOnInputOnly : Prop :=
  ∀ (i : Instr) (s s' t t' : State), s.build = s'.build → s.inLen = s'.inLen → s.inMem = s'.inMem → s.draws = s'.draws →
    exec i s = .next t → exec i s' = .next t' →
    t.status = t'.status ∧ t.outLen = t'.outLen ∧ t.outMem = t'.outMem

/-! ## The host's accesses (spec/20_memory.md, spec/10_state.md) -/

/-- STATUS as a word (10_state.md R23): BUSY [0], DONE [1], ERR [2] = 1 exactly when ERRCODE is not 0, ERRCODE [7:4], and 0 in
bits [3] and [31:8]. -/
def Obligations.StatusWordLayout : Prop :=
  ∀ s : State,
    s.status.getLsbD 0 = s.busy ∧ s.status.getLsbD 1 = s.done ∧
    (s.status.getLsbD 2 = true ↔ s.errcode ≠ 0#4) ∧ s.status.getLsbD 3 = false ∧
    s.status.extractLsb' 4 4 = s.errcode ∧ s.status.extractLsb' 8 24 = 0#24

/-- The reads of R64: the value of each case, and the frame. Where the rule says "any value (a fresh draw)" the value is the next
free value and one more is drawn (the count of draws is the model's, log entry 6); every other read changes nothing. The
model's reading of R64, no rule's plain words: REG reads 0 also at offsets of 64 and above (log entry 13, unsafe), and a read
of OUT while BUSY is a fresh draw also at offsets of OUT_CAP and above, for which D25 has 0 (log entry 14). -/
def Obligations.HostReadTable : Prop :=
  ∀ (s : State) (off : Nat),
    (hostRead .reg off s).1 = s ∧
    (hostRead .reg 0x00 s).2 = 0#32 ∧ (hostRead .reg 0x04 s).2 = s.status ∧
    (hostRead .reg 0x08 s).2 = s.inLen ∧ (hostRead .reg 0x0C s).2 = s.outLen ∧
    (off ≠ 0x04 → off ≠ 0x08 → off ≠ 0x0C → (hostRead .reg off s).2 = 0#32) ∧
    (∀ b, off < s.build.inCap → s.inMem.read off = some b → hostRead .inp off s = (s, b.setWidth 32)) ∧
    (off < s.build.inCap → s.inMem.read off = none →
      hostRead .inp off s = ({ s with draws := s.draws + 1 }, (Config.freeByte s.draws).setWidth 32)) ∧
    (s.build.inCap ≤ off → hostRead .inp off s = (s, 0#32)) ∧
    (s.busy = true → hostRead .out off s = ({ s with draws := s.draws + 1 }, (Config.freeByte s.draws).setWidth 32)) ∧
    (∀ b, s.busy = false → off < s.outLen.toNat → s.outMem.read off = some b →
      hostRead .out off s = (s, b.setWidth 32)) ∧
    (s.busy = false → s.outLen.toNat ≤ off → off < s.build.outCap →
      hostRead .out off s = ({ s with draws := s.draws + 1 }, (Config.freeByte s.draws).setWidth 32)) ∧
    (s.busy = false → s.outLen.toNat ≤ off → s.build.outCap ≤ off → hostRead .out off s = (s, 0#32))

/-- The writes of R64 while BUSY = 0, with their frame: only CMD, IN_LEN and the bytes of IN take a write. The model's choice:
a write of REG is ignored also at offsets of 64 and above (log entry 13, unsafe), and a byte write takes the low eight bits of
its value (log entry 15). -/
def Obligations.HostWriteTable : Prop :=
  ∀ (s : State) (off : Nat) (v : Word), s.busy = false →
    hostWrite .reg 0x00 v s = acceptCommand v s ∧
    hostWrite .reg 0x08 v s = { s with inLen := v } ∧
    (off ≠ 0x00 → off ≠ 0x08 → hostWrite .reg off v s = s) ∧
    (off < s.build.inCap →
      (hostWrite .inp off v s).inMem.read off = some (v.setWidth 8) ∧
      (∀ a, a ≠ off → (hostWrite .inp off v s).inMem.read a = s.inMem.read a) ∧
      hostWrite .inp off v s = { s with inMem := (hostWrite .inp off v s).inMem }) ∧
    (s.build.inCap ≤ off → hostWrite .inp off v s = s) ∧
    hostWrite .out off v s = s

/-- R275: while BUSY = 1 every write is dropped: no command starts, IN_LEN and IN keep their values. -/
def Obligations.WritesWhileBusyAreLost : Prop :=
  ∀ (s : State) (sp : Space) (off : Nat) (v : Word), s.busy = true → hostWrite sp off v s = s

/-- R27: acceptance, as one step, and no other step than acceptance, completion and RESET writes STATUS. -/
def Obligations.AcceptanceAndStatusWriters : Prop :=
  (∀ (s : State) (w : Word),
    (acceptCommand w s).busy = true ∧ (acceptCommand w s).done = false ∧ (acceptCommand w s).err = false ∧
    (acceptCommand w s).errcode = 0#4 ∧ (acceptCommand w s).outLen = 0#32 ∧ (acceptCommand w s).cmdWord = w ∧
    (acceptCommand w s).inLen = s.inLen ∧ (acceptCommand w s).inMem = s.inMem ∧ (acceptCommand w s).outMem = s.outMem ∧
    (acceptCommand w s).engine = s.engine ∧ (acceptCommand w s).build = s.build ∧ (acceptCommand w s).host = s.host) ∧
  (∀ s t : State, step s = .next t → t.status ≠ s.status →
    s.resetDue = true ∨ s.engineDue = true ∨
    (s.busy = false ∧ t.status = 0x00000001#32 ∧
      ∃ v, s.host.current = some (.write .reg 0x00 4 v) ∧ t.cmdWord = s.host.operand v))

/-- R62: on the host's turn, a read or write of REG that is not an aligned 32-bit access, or of IN or OUT that is not a byte
access, is refused; every other access is performed. -/
def Obligations.AccessesOutsideContractRefused : Prop :=
  ∀ (s : State) (sp : Space) (off width : Nat), s.resetDue = false → s.engineDue = false →
    ((∃ v, s.host.current = some (.write sp off width v)) ∨ (∃ x, s.host.current = some (.read sp off width x))) →
    (((sp = .reg ∧ width = 4 ∧ off % 4 = 0) ∨ (sp ≠ .reg ∧ width = 1)) → ∃ t, step s = .next t) ∧
    (¬((sp = .reg ∧ width = 4 ∧ off % 4 = 0) ∨ (sp ≠ .reg ∧ width = 1)) →
      step s = .refused .accessOutsideContract)

/-- The host's turn with an admitted access (30_encoding.md R99): a `wr` performs the write, an `rd` puts the value read into its
variable and leaves the other variables; both go on to the next statement. `readBytes` is the model's form of the reads of
`read_out` (R100, log entry 22): it reads one byte of OUT into the next variable of its buffer (log entry 15) and stays until it
has read the number its variable holds, then goes on. -/
def Obligations.HostAccessStatements : Prop :=
  ∀ s : State, s.resetDue = false → s.engineDue = false →
    (∀ sp off width v, accessAdmitted sp off width = true → s.host.current = some (.write sp off width v) →
      step s = .next { hostWrite sp off (s.host.operand v) s.tick with host := s.host.advance }) ∧
    (∀ sp off width x, accessAdmitted sp off width = true → s.host.current = some (.read sp off width x) →
      ∃ t, step s = .next t ∧ t.host.value x = (hostRead sp off s.tick).2 ∧
        (∀ y, y ≠ x → t.host.value y = s.host.value y) ∧
        t.host.pos = s.host.pos + 1 ∧ t.host.program = s.host.program ∧
        { t with host := s.host } = (hostRead sp off s.tick).1) ∧
    (∀ n buf, s.host.current = some (.readBytes n buf) → s.host.idx < (s.host.value n).toNat →
      ∃ t, step s = .next t ∧ t.host.value (buf + s.host.idx) = (hostRead .out s.host.idx s.tick).2 ∧
        (∀ y, y ≠ buf + s.host.idx → t.host.value y = s.host.value y) ∧
        t.host.pos = s.host.pos ∧ t.host.idx = s.host.idx + 1 ∧ t.host.program = s.host.program ∧
        { t with host := s.host } = (hostRead .out s.host.idx s.tick).1) ∧
    (∀ n buf, s.host.current = some (.readBytes n buf) → (s.host.value n).toNat ≤ s.host.idx →
      step s = .next { s.tick with host := s.host.advance })

/-- The host's own statements (30_encoding.md R99): a label goes on, `bne` jumps to its label's position when the value differs
and goes on otherwise, `end` stops the host. None of them touches HUFCORE. The model's choice (log entry 16): a label is a
statement that takes a step, and a label defined more than once stands at its first definition. -/
def Obligations.HostControlStatements : Prop :=
  ∀ s : State, s.resetDue = false → s.engineDue = false →
    (∀ l, s.host.current = some (.label l) → step s = .next { s.tick with host := s.host.advance }) ∧
    (∀ x f v l p, s.host.current = some (.bne x f v l) → findLabel l s.host.program = some p →
      step s = .next { s.tick with
        host := if bneValue (s.host.value x) f = v then s.host.advance else { s.host with pos := p, idx := 0 } }) ∧
    (s.host.current = some .stop →
      ∃ t, step s = .next t ∧ t.host.current = none ∧ { t with host := s.host } = s.tick)

/-! ## Reset and the life of a command (spec/70_reset_and_hazards.md) -/

/-- R39: the values the spec gives for the state after reset. -/
def Obligations.ResetValues : Prop :=
  State.reset.busy = false ∧ State.reset.done = false ∧ State.reset.err = false ∧ State.reset.errcode = 0#4 ∧
  State.reset.status = 0#32 ∧ State.reset.inLen = 0#32 ∧ State.reset.outLen = 0#32 ∧
  readReg State.reset 0x00 = 0#32 ∧
  (∀ a, State.reset.inMem.read a = none) ∧ (∀ a, State.reset.outMem.read a = none)

/-- R270: a RESET that arrives in any state, also while a command runs, sets STATUS, IN_LEN and OUT_LEN to 0 and leaves no byte of
IN or OUT defined; the running command is abandoned. No step, the host's among them, changes when the next RESET arrives:
no access starts one. The model's choice: the build and the host are outside HUFCORE and are kept (log entries 1, 18), and the
RESETs to come are a list of waits (log entry 4). -/
def Obligations.ResetArrivesInAnyState : Prop :=
  (∀ s : State, s.resetDue = true →
    ∃ t, step s = .next t ∧ t.busy = false ∧ t.done = false ∧ t.err = false ∧ t.errcode = 0#4 ∧
      t.inLen = 0#32 ∧ t.outLen = 0#32 ∧ (∀ a, t.inMem.read a = none) ∧ (∀ a, t.outMem.read a = none) ∧
      t.build = s.build ∧ t.host = s.host) ∧
  (∀ s t : State, step s = .next t → t.platform = tickPlatform s.platform)

/-- Nothing wakes the block but an accepted CMD write (60_exceptions.md R261, 70_reset_and_hazards.md R271): from BUSY = 0, a step
leads to BUSY = 1 only by the host's write of CMD. -/
def Obligations.OnlyCmdWriteWakes : Prop :=
  ∀ s t : State, s.busy = false → step s = .next t → t.busy = true →
    s.resetDue = false ∧ ∃ v, s.host.current = some (.write .reg 0x00 4 v) ∧ t.cmdWord = s.host.operand v

/-- 10_state.md R29: the engine never writes IN; a byte of IN changes only by RESET or by the host's write of that byte while
BUSY = 0. That the byte left is the low eight bits of the value written is the model's choice (log entry 15). -/
def Obligations.OnlyHostWritesIn : Prop :=
  ∀ (s t : State) (a : Nat), step s = .next t → t.inMem.read a ≠ s.inMem.read a →
    s.resetDue = true ∨
    (s.busy = false ∧ a < s.build.inCap ∧ ∃ v, s.host.current = some (.write .inp a 1 v) ∧
      t.inMem.read a = some ((s.host.operand v).setWidth 8))

/-- No step changes the build's parameters (log entry 1): the model's form of 00_scope.md R7. -/
def Obligations.BuildIsFixed : Prop :=
  ∀ s t : State, step s = .next t → t.build = s.build

/-- A running command keeps its input to its completion (20_memory.md R70, 46_commands.md R226): with no RESET to come, after as many
steps as its delay the command still runs on the CMDWORD, IN_LEN and IN that stood before, with OUT_LEN 0 if it was 0, and
the next step completes it. The count of steps is the model's (log entry 2). -/
def Obligations.CommandCompletesAfterItsDelay : Prop :=
  ∀ s t : State, s.busy = true → s.platform = [] → Sys2Proof.core.run s.delay s = .next t →
    t.busy = true ∧ t.delay = 0 ∧ t.cmdWord = s.cmdWord ∧ t.inLen = s.inLen ∧ t.inMem = s.inMem ∧ t.outLen = s.outLen ∧
    ∃ u, step t = .next u ∧ u.busy = false ∧ u.done = true

/-- A final state rests (46_commands.md R227): with the host ended, BUSY = 0 and no RESET, a step only lets time pass, and the state
stays final. In every state STATUS, OUT_LEN and OUT persist (60_exceptions.md R253, 20_memory.md R70 item 2, decision D35) over
each step that is no RESET, no completion and no accepted CMD write. The idle step is the model's (log entry 21). -/
def Obligations.FinalStateRests : Prop :=
  (∀ s : State, s.final → s.resetDue = false →
    ∃ t, step s = .next t ∧ t.final ∧ t.status = s.status ∧ t.inLen = s.inLen ∧ t.outLen = s.outLen ∧
      t.inMem = s.inMem ∧ t.outMem = s.outMem ∧ t.engine = s.engine ∧ t.draws = s.draws) ∧
  (∀ s t : State, step s = .next t → s.resetDue = false → s.engineDue = false →
    (s.busy = true ∨ ∀ v, s.host.current ≠ some (.write .reg 0x00 4 v)) →
    t.busy = s.busy ∧ t.status = s.status ∧ t.outLen = s.outLen ∧ t.outMem = s.outMem)

/-- The pseudo-operations of 30_encoding.md R100, run where the host stands, with BUSY = 0 and no RESET to come. `load_in` of m
operands leaves their low eight bits (log entry 15) in IN[0 .. m) and m in IN_LEN. `run` ends: its command has completed and
its variable holds the final STATUS. `read_out` of a result of defined bytes leaves OUT_LEN in its variable and the bytes in its
buffer. The counts of steps, and that the command of `run` is an immediate word, are the model's (log entries 16, 22). -/
def Obligations.PseudoOperationsRun : Prop :=
  (∀ (s : State) (ops : List HostOperand) (rest : List HostStmt), s.busy = false → s.platform = [] →
    s.host.program.drop s.host.pos = loadIn ops ++ rest → ops.length ≤ s.build.inCap → ops.length < 2 ^ 32 →
    ∃ t, Sys2Proof.core.run (ops.length + 1) s = .next t ∧ t.inLen.toNat = ops.length ∧
      (∀ i (h : i < ops.length), t.inMem.read i = some ((s.host.operand ops[i]).setWidth 8)) ∧
      (∀ a, ops.length ≤ a → t.inMem.read a = s.inMem.read a) ∧
      t.host.program.drop t.host.pos = rest ∧ t.host.vars = s.host.vars ∧
      t.busy = false ∧ t.status = s.status ∧ t.outLen = s.outLen ∧ t.outMem = s.outMem) ∧
  (∀ (s : State) (cmd : Word) (w x : Nat) (rest : List HostStmt), s.busy = false → s.platform = [] →
    s.host.program.drop s.host.pos = runCmd cmd w x ++ rest → findLabel w s.host.program = some (s.host.pos + 1) →
    ∃ k t, Sys2Proof.core.run k s = .next t ∧ t.busy = false ∧ t.done = true ∧ t.cmdWord = cmd ∧
      t.host.value x = t.status ∧ t.host.program.drop t.host.pos = rest ∧ t.inLen = s.inLen ∧ t.inMem = s.inMem) ∧
  (∀ (s : State) (n buf : Nat) (y : List Byte) (rest : List HostStmt), s.busy = false → s.platform = [] →
    s.host.program.drop s.host.pos = readOutTo n buf ++ rest → s.outLen.toNat = y.length →
    (∀ i (h : i < y.length), s.outMem.read i = some y[i]) → (∀ i < y.length, buf + i ≠ n) →
    ∃ t, Sys2Proof.core.run (y.length + 2) s = .next t ∧ t.host.value n = s.outLen ∧
      (∀ i (h : i < y.length), t.host.value (buf + i) = y[i].setWidth 32) ∧
      (∀ z, z ≠ n → (∀ i < y.length, z ≠ buf + i) → t.host.value z = s.host.value z) ∧
      t.host.program.drop t.host.pos = rest ∧ t.busy = false ∧ t.status = s.status ∧ t.outLen = s.outLen ∧
      t.outMem = s.outMem ∧ t.inLen = s.inLen ∧ t.inMem = s.inMem)

/-! ## The invariant -/

/-- The reset state, of every build, meets the invariant and the bounds of the tables. -/
def Obligations.ResetMeetsInvariant : Prop :=
  State.reset.Inv ∧ State.reset.engine.Bounded State.reset.build

/-- Every step keeps the invariant of the host-visible machine: the legal combinations of BUSY, DONE, ERR (10_state.md R23),
ERRCODE at most 7 (60_exceptions.md R241), canonical buffers inside their capacities, OUT_LEN ≤ OUT_CAP (R25) and OUT[0 .. OUT_LEN)
defined (R30). -/
def Obligations.StepKeepsInvariant : Prop :=
  ∀ s t : State, s.Inv → step s = .next t → t.Inv

/-- Every step keeps the sizes of the internal tables of 10_state.md R31 to R36. That the tables keep these contents after a
command is the model's choice (log entry 8); the sizes are the spec's. -/
def Obligations.StepKeepsTableBounds : Prop :=
  ∀ s t : State, s.build.wf = true → s.engine.Bounded s.build → step s = .next t → t.engine.Bounded t.build

/-! ## FREQ_COUNT and BUILD_TREE (spec/41_tree_builder.md) -/

/-- R120, R121: F[s] counts s in the input; the counts add up to the input's length; n is between 1 and min(256, |x|) for a
non-empty input; F depends on the multiset of bytes alone. -/
def Obligations.FrequencyTableCounts : Prop :=
  (∀ (x : List Byte) (s : Byte), (freqCount x).at s = x.count s) ∧
  (∀ x : List Byte, (allSymbols.map (freqCount x).at).sum = x.length) ∧
  (∀ x : List Byte, x ≠ [] → 1 ≤ presentCount (freqCount x) ∧ presentCount (freqCount x) ≤ min 256 x.length) ∧
  (∀ x y : List Byte, x.Perm y → freqCount x = freqCount y)

/-- R122: the initial working list holds one Leaf, side 0, for each present symbol, in ascending order. -/
def Obligations.InitialWorkIsAscending : Prop :=
  ∀ F : FreqTable,
    (∀ n, n ∈ initWork F ↔ ∃ s, 0 < F.at s ∧ n = .leaf s (F.at s) false) ∧
    ((initWork F).flatMap Node.symbols).Pairwise (fun a b => a.toNat < b.toNat) ∧
    (initWork F).length = presentCount F

/-- R123: firstMin is the least index of a node of least frequency. -/
def Obligations.FirstMinIsLeastIndex : Prop :=
  ∀ W : List Node, W ≠ [] →
    ∃ A, W[firstMin W]? = some A ∧
      (∀ (j : Nat) (n : Node), W[j]? = some n → A.freq ≤ n.freq) ∧
      (∀ (j : Nat) (n : Node), j < firstMin W → W[j]? = some n → A.freq < n.freq)

/-- One pass of the loop of R124: the first minimum A, then the first minimum B of the rest, are taken out, and
Internal(A with side 1, B with side 0) with the sum of their frequencies goes to the end. -/
def Obligations.MergePass : Prop :=
  ∀ W : List Node, 2 ≤ W.length →
    ∃ A B, W[firstMin W]? = some A ∧ (W.eraseIdx (firstMin W))[firstMin (W.eraseIdx (firstMin W))]? = some B ∧
      mergeStep W = (W.eraseIdx (firstMin W)).eraseIdx (firstMin (W.eraseIdx (firstMin W))) ++
        [.internal (A.setSide true) (B.setSide false) (A.freq + B.freq) false]

/-- R125, R126: the tree built from a non-empty input has exactly the present symbols as leaves, each once, n − 1 Internal nodes
and depth at most n − 1; its root's frequency is |x| and every node's is the sum below it; every child₀ has side 1, every
child₁ side 0, and the root's side is 0. -/
def Obligations.BuiltTreeShape : Prop :=
  ∀ x : List Byte, x ≠ [] → ∃ t, buildTree (freqCount x) = some t ∧
    t.symbols.Nodup ∧ (∀ s, s ∈ t.symbols ↔ s ∈ x) ∧ t.symbols.length = presentCount (freqCount x) ∧
    t.internals = presentCount (freqCount x) - 1 ∧ t.depth ≤ presentCount (freqCount x) - 1 ∧
    t.depth ≤ 255 ∧ t.freq = x.length ∧ t.weighs (freqCount x) ∧ t.sidesOk = true ∧ t.side = false

/-! ## DERIVE_CODES (spec/42_codeword.md) -/

/-- The table has a codeword exactly for the leaves of the tree (10_state.md R34), and none is empty; the only symbol of a
single-Leaf tree has `[0]` (R142). -/
def Obligations.CodesExactlyForLeaves : Prop :=
  (∀ (t : Node) (s : Byte), ((deriveCodes t).at s).isSome = true ↔ s ∈ t.symbols) ∧
  (∀ (t : Node) (s : Byte) (c : List Bit), (deriveCodes t).at s = some c → c ≠ []) ∧
  (∀ (s : Byte) (f : Nat) (b : Bit), (deriveCodes (.leaf s f b)).at s = some [false])

/-- R143: in a tree with distinct leaf symbols and the sides of R125, no codeword is a prefix of another symbol's. -/
def Obligations.CodewordsArePrefixFree : Prop :=
  ∀ (t : Node) (s s' : Byte) (c c' : List Bit), t.symbols.Nodup → t.sidesOk = true → s ≠ s' →
    (deriveCodes t).at s = some c → (deriveCodes t).at s' = some c' → ¬ c <+: c'

/-- R145: with n leaves, a codeword has 1 to n − 1 bits for n ≥ 2 and one bit for n = 1, so 1 to 255 bits. -/
def Obligations.CodewordLengths : Prop :=
  ∀ (t : Node) (s : Byte) (c : List Bit), t.symbols.Nodup → (deriveCodes t).at s = some c →
    (2 ≤ t.symbols.length → 1 ≤ c.length ∧ c.length ≤ t.symbols.length - 1) ∧
    (t.symbols.length = 1 → c.length = 1) ∧ 1 ≤ c.length ∧ c.length ≤ 255

/-- The sum of R144, scaled by 2^depth: for a tree with two or more distinct leaves Σ 2^(−|CODE[s]|) = 1. -/
def Obligations.CodewordsAreComplete : Prop :=
  ∀ t : Node, t.symbols.Nodup → 2 ≤ t.symbols.length →
    (t.symbols.map (fun s => 2 ^ (t.depth - (((deriveCodes t).at s).getD []).length))).sum = 2 ^ t.depth

/-! ## SERIALIZE_TREE and DESERIALIZE_TREE (spec/43_tree_serdes.md) -/

/-- The tree field has 10n − 1 bits (R162), at most 2559 when the leaf symbols are distinct. -/
def Obligations.TreeFieldLength : Prop :=
  ∀ t : Node, (serializeTree t).length = 10 * t.symbols.length - 1 ∧
    (t.symbols.Nodup → (serializeTree t).length ≤ 2559)

/-- R170: parsing a built tree's serialization, whatever follows it, gives the tree back with frequencies 0, its length and its
symbols in preorder, and the same codewords. -/
def Obligations.TreeRoundTrip : Prop :=
  ∀ (x : List Byte) (t : Node) (r : List Bit), buildTree (freqCount x) = some t →
    deserializeTree (serializeTree t ++ r) =
      .ok { root := t.eraseFreq, used := 10 * t.symbols.length - 1, alpha := t.symbols } ∧
    deriveCodes t.eraseFreq = deriveCodes t

/-- R167, R168 and the bounds of R166: a parsed tree is a full binary tree of distinct symbols with at most 256 leaves and 255
Internal nodes, every frequency 0, the sides of R125 and the root's side 0; k = 10n − 1, and those k bits are its serialization. -/
def Obligations.ParsedTreeIsBounded : Prop :=
  ∀ (C : List Bit) (p : ParsedTree), deserializeTree C = .ok p →
    p.root.symbols.Nodup ∧ p.root.symbols.length ≤ 256 ∧ p.root.internals ≤ 255 ∧ p.root.count ≤ 511 ∧
    p.root.depth ≤ 255 ∧ p.alpha = p.root.symbols ∧ p.used = 10 * p.root.symbols.length - 1 ∧
    C.take p.used = serializeTree p.root ∧
    p.root.allFreq (fun f => f == 0) = true ∧ p.root.sidesOk = true ∧ p.root.side = false

/-- Where the parse fails (R165, R166), at any node: no bit left, a leaf's symbol cut short, a repeated symbol, a 256th Internal
node. -/
def Obligations.ParserErrors : Prop :=
  ∀ (fuel : Nat) (alpha : List Byte) (nInt : Nat),
    parseNode (fuel + 1) { rest := [], alpha := alpha, nInt := nInt } = .error .truncatedStream ∧
    (∀ r, r.length < 8 →
      parseNode (fuel + 1) { rest := true :: r, alpha := alpha, nInt := nInt } = .error .truncatedStream) ∧
    (∀ s r, s ∈ alpha →
      parseNode (fuel + 1) { rest := true :: (bits8 s ++ r), alpha := alpha, nInt := nInt } = .error .malformedTree) ∧
    (∀ r, nInt = 255 →
      parseNode (fuel + 1) { rest := false :: r, alpha := alpha, nInt := nInt } = .error .malformedTree)

/-! ## PACK and UNPACK (spec/44_bitstream.md) -/

/-- R85, R93, R94: the bits of a packed unit are the header bits3(L mod 8), the content, and (8 − (L mod 8)) mod 8 zero bits,
where L = 3 + |C|. -/
def Obligations.PackedUnitLayout : Prop :=
  ∀ C : List Bit,
    bytesToBits (pack C) = bits3 ((3 + C.length) % 8) ++ C ++ List.replicate ((8 - (3 + C.length) % 8) % 8) false

/-- R183: a packed unit has ceil((3 + |C|) / 8) bytes, and 0 to 7 bits of padding. -/
def Obligations.PackLength : Prop :=
  ∀ C : List Bit, (pack C).length = (3 + C.length + 7) / 8 ∧
    8 * (pack C).length - (3 + C.length) = (8 - (3 + C.length) % 8) % 8 ∧ (8 - (3 + C.length) % 8) % 8 ≤ 7

/-- R185: unpacking a packed content gives it back. -/
def Obligations.UnpackAfterPack : Prop :=
  ∀ C : List Bit, unpack (pack C) = .ok C

/-- R186: packing the content of a byte string gives the string back exactly when its padding bits are all 0. -/
def Obligations.PackAfterUnpack : Prop :=
  ∀ (x : List Byte) (C : List Bit), unpack x = .ok C →
    (pack C = x ↔ ∀ b ∈ (bytesToBits x).drop (3 + C.length), b = false)

/-- When UNPACK fails (R184, R243): exactly on no bytes, or on one byte whose header is 1 or 2, with TRUNCATED_STREAM. -/
def Obligations.UnpackFailsExactlyWhenTooShort : Prop :=
  ∀ x : List Byte,
    ((∃ e, unpack x = .error e) ↔
      x = [] ∨ ∃ b : Byte, x = [b] ∧ (b.extractLsb' 5 3 = 1#3 ∨ b.extractLsb' 5 3 = 2#3)) ∧
    (∀ e, unpack x = .error e → e = .truncatedStream)

/-! ## The payload (spec/45_payload.md) -/

/-- R201: the payload of an input has Σ_s F[s]·|CODE[s]| bits: m for a single-symbol input of m bytes, between m and 255·m
otherwise. -/
def Obligations.PayloadLength : Prop :=
  ∀ (x : List Byte) (t : Node), buildTree (freqCount x) = some t →
    (payloadEncode (deriveCodes t) x).length = payloadLength (freqCount x) (deriveCodes t) ∧
    (t.symbols.length = 1 → (payloadEncode (deriveCodes t) x).length = x.length) ∧
    x.length ≤ (payloadEncode (deriveCodes t) x).length ∧ (payloadEncode (deriveCodes t) x).length ≤ 255 * x.length

/-- R207: on every tree DESERIALIZE_TREE returns, the tree walk and greedy matching against the codeword table agree, in result
and in error. -/
def Obligations.WalkAgreesWithGreedy : Prop :=
  ∀ (C : List Bit) (p : ParsedTree) (P : List Bit), deserializeTree C = .ok p →
    payloadDecode p.root P = greedyDecode (deriveCodes p.root) P

/-- R208: decoding the payload of an input under its tree, after serialization and deserialization, gives the input back. -/
def Obligations.PayloadRoundTrip : Prop :=
  ∀ (x : List Byte) (t : Node), x ≠ [] → buildTree (freqCount x) = some t →
    ∃ p, deserializeTree (serializeTree t) = .ok p ∧
      payloadDecode p.root (payloadEncode (deriveCodes t) x) = .ok x

/-- The errors of DECODE_FN (60_exceptions.md R243 to R245): only TRUNCATED_STREAM, UNRESOLVED_PAYLOAD_BITS and MALFORMED_TREE; and
it fails with UNRESOLVED_PAYLOAD_BITS exactly on a payload with a 1 bit under a single-Leaf root. -/
def Obligations.DecodeErrors : Prop :=
  (∀ (x : List Byte) (e : ErrCode), decodeFn x = .error e →
    e = .truncatedStream ∨ e = .unresolvedPayloadBits ∨ e = .malformedTree) ∧
  (∀ x : List Byte, decodeFn x = .error .unresolvedPayloadBits ↔
    ∃ C p, unpack x = .ok C ∧ deserializeTree C = .ok p ∧ p.root.internals = 0 ∧ true ∈ C.drop p.used)

/-! ## The codec as a whole -/

/-- R225: for every non-empty input, ENCODE_FN gives a unit and DECODE_FN of the unit gives the input back. -/
def Obligations.EncodedUnitRoundTrip : Prop :=
  ∀ x : List Byte, x ≠ [] → ∃ u, encodeFn x = .ok u ∧ decodeFn u = .ok x

/-- R228: the unit of an input with n present symbols has logical length L = 3 + (10n − 1) + Σ_s F[s]·|CODE[s]|, ceil(L/8) bytes
and usefulBits L mod 8; for n = 1, L = 12 + m. -/
def Obligations.EncodeOutputLength : Prop :=
  ∀ (x u : List Byte) (t : Node), buildTree (freqCount x) = some t → encodeFn x = .ok u →
    let L := 3 + (10 * presentCount (freqCount x) - 1) + payloadLength (freqCount x) (deriveCodes t)
    u.length = (L + 7) / 8 ∧ (u.head?.map (fun b => (b.extractLsb' 5 3).toNat)) = some (L % 8) ∧
    (presentCount (freqCount x) = 1 → L = 12 + x.length)

/-- The DECODE half of R282: a unit of k bytes decodes to at most 8k − 12 bytes. -/
def Obligations.DecodeExpansionBound : Prop :=
  ∀ x y : List Byte, decodeFn x = .ok y → y.length + 12 ≤ 8 * x.length
end

