-- ==== Sys2Proof/Laws/Codec.lean ====
section
/-! SUPPORT. The small lemmas of the codec's stages: bytes and bits, the tables, the merge loop, the parser's fuel. -/

namespace Sys2Proof.Machine

/-! Bytes and bits (spec/44_bitstream.md R180). -/

@[simp] theorem bits8_length (v : Byte) : (bits8 v).length = 8 := rfl

@[simp] theorem bits3_length (u : Nat) : (bits3 u).length = 3 := rfl

theorem bits8_byteOfBits (b7 b6 b5 b4 b3 b2 b1 b0 : Bit) :
    bits8 (byteOfBits [b7, b6, b5, b4, b3, b2, b1, b0]) = [b7, b6, b5, b4, b3, b2, b1, b0] := by
  revert b7 b6 b5 b4 b3 b2 b1 b0
  decide

theorem byteOfBits_bits8 (v : Byte) : byteOfBits (bits8 v) = v := by
  revert v
  decide

theorem bitsVal_bits3 {u : Nat} (h : u < 8) : bitsVal (bits3 u) = u := by
  revert u
  decide

@[simp] theorem bytesToBits_nil : bytesToBits [] = [] := rfl

@[simp] theorem bytesToBits_cons (b : Byte) (x : List Byte) : bytesToBits (b :: x) = bits8 b ++ bytesToBits x := rfl

@[simp] theorem bytesToBits_length (x : List Byte) : (bytesToBits x).length = 8 * x.length := by
  induction x with
  | nil => rfl
  | cons b x ih => simp [ih]; omega

theorem bitsToBytes_bits8_append (v : Byte) (S : List Bit) : bitsToBytes (bits8 v ++ S) = v :: bitsToBytes S := by
  show byteOfBits (bits8 v) :: bitsToBytes S = _
  rw [byteOfBits_bits8]

/-- A list of at least eight bits begins with the bits of a byte. -/
theorem exists_bits8_of_length {S : List Bit} (h : 8 ≤ S.length) : ∃ v S', S = bits8 v ++ S' := by
  match S, h with
  | b7 :: b6 :: b5 :: b4 :: b3 :: b2 :: b1 :: b0 :: S', _ =>
    exact ⟨byteOfBits [b7, b6, b5, b4, b3, b2, b1, b0], S', by rw [bits8_byteOfBits]; rfl⟩

theorem bitsToBytes_bytesToBits (x : List Byte) : bitsToBytes (bytesToBits x) = x := by
  induction x with
  | nil => rfl
  | cons b x ih => rw [bytesToBits_cons, bitsToBytes_bits8_append, ih]

theorem bytesToBits_bitsToBytes {n : Nat} : ∀ {S : List Bit}, S.length = 8 * n → bytesToBits (bitsToBytes S) = S := by
  induction n with
  | zero => intro S h; rw [List.length_eq_zero_iff.1 h]; rfl
  | succ n ih =>
    intro S h
    obtain ⟨v, S', rfl⟩ := exists_bits8_of_length (S := S) (by omega)
    rw [bitsToBytes_bits8_append, bytesToBits_cons, ih (by simp at h; omega)]

theorem readSymbol_bits8 (v : Byte) (r : List Bit) : readSymbol (bits8 v ++ r) = .ok (v, r) := by
  show (Except.ok (byteOfBits (bits8 v), r) : Result _) = _
  rw [byteOfBits_bits8]

theorem readSymbol_ok {bs r : List Bit} {v : Byte} (h : readSymbol bs = .ok (v, r)) : bs = bits8 v ++ r := by
  by_cases hl : 8 ≤ bs.length
  · obtain ⟨w, S, rfl⟩ := exists_bits8_of_length hl
    rw [readSymbol_bits8] at h
    obtain ⟨rfl, rfl⟩ := Prod.mk.inj (Except.ok.inj h)
    rfl
  · unfold readSymbol at h
    split at h
    · simp at hl
    · exact absurd h (by simp)

/-! The tables. -/

@[simp] theorem at_replicate (s : Byte) (n : Nat) : FreqTable.at (Vector.replicate 256 n) s = n := by
  simp [FreqTable.at]

theorem at_bump (F : FreqTable) (s b : Byte) : (F.bump b).at s = if b = s then F.at s + 1 else F.at s := by
  simp only [FreqTable.at, FreqTable.bump, Vector.getElem_set, BitVec.toNat_inj]
  split
  · next h => subst h; rfl
  · rfl

@[simp] theorem at_empty (s : Byte) : CodeTable.empty.at s = none := by
  simp [CodeTable.at, CodeTable.empty]

theorem at_put (T : CodeTable) (s b : Byte) (p : List Bit) : (T.put b p).at s = if b = s then some p else T.at s := by
  simp only [CodeTable.at, CodeTable.put, Vector.getElem_set, BitVec.toNat_inj]

theorem mem_allSymbols (s : Byte) : s ∈ allSymbols := by
  simp only [allSymbols, List.mem_map, List.mem_range]
  exact ⟨s.toNat, s.isLt, by simp⟩

theorem allSymbols_length : allSymbols.length = 256 := by simp [allSymbols]

theorem allSymbols_sorted : allSymbols.Pairwise (fun a b => a.toNat < b.toNat) := by
  simp only [allSymbols, List.pairwise_map]
  refine List.Pairwise.imp_of_mem ?_ List.pairwise_lt_range
  intro a b ha hb h
  simp only [List.mem_range] at ha hb
  simp only [BitVec.toNat_ofNat]
  omega

theorem allSymbols_nodup : allSymbols.Nodup :=
  allSymbols_sorted.imp fun h => by rintro rfl; exact lt_irrefl _ h

/-! Nodes. -/

@[simp] theorem setSide_freq (b : Bit) (n : Node) : (n.setSide b).freq = n.freq := by cases n <;> rfl
@[simp] theorem setSide_side (b : Bit) (n : Node) : (n.setSide b).side = b := by cases n <;> rfl
@[simp] theorem setSide_symbols (b : Bit) (n : Node) : (n.setSide b).symbols = n.symbols := by cases n <;> rfl
@[simp] theorem setSide_internals (b : Bit) (n : Node) : (n.setSide b).internals = n.internals := by cases n <;> rfl
@[simp] theorem setSide_count (b : Bit) (n : Node) : (n.setSide b).count = n.count := by cases n <;> rfl
@[simp] theorem setSide_depth (b : Bit) (n : Node) : (n.setSide b).depth = n.depth := by cases n <;> rfl
@[simp] theorem setSide_sidesOk (b : Bit) (n : Node) : (n.setSide b).sidesOk = n.sidesOk := by cases n <;> rfl
@[simp] theorem setSide_allFreq (p : Nat → Bool) (b : Bit) (n : Node) : (n.setSide b).allFreq p = n.allFreq p := by
  cases n <;> rfl
@[simp] theorem setSide_serialize (b : Bit) (n : Node) : serializeTree (n.setSide b) = serializeTree n := by
  cases n <;> rfl

/-- A tree has one Internal node fewer than it has leaves (10_state.md R32). -/
theorem internals_add_one (n : Node) : n.internals + 1 = n.symbols.length := by
  induction n with
  | leaf => rfl
  | internal c0 c1 f b ih0 ih1 => simp [Node.internals, Node.symbols]; omega

theorem count_eq (n : Node) : n.count = n.symbols.length + n.internals := by
  induction n with
  | leaf => rfl
  | internal c0 c1 f b ih0 ih1 => simp [Node.internals, Node.symbols, Node.count]; omega

theorem depth_le_internals (n : Node) : n.depth ≤ n.internals := by
  induction n with
  | leaf => exact Nat.le_refl _
  | internal c0 c1 f b ih0 ih1 => simp [Node.internals, Node.depth]; omega

/-! The merge loop (41_tree_builder.md R123, R124). -/

theorem scanMin_lt (best : Node) (k i : Nat) (W : List Node) (h : k < i) : scanMin best k i W < i + W.length := by
  induction W generalizing best k i with
  | nil => exact h
  | cons n W ih =>
    unfold scanMin
    split
    · have := ih n i (i + 1) (by omega); simp only [List.length_cons]; omega
    · have := ih best k (i + 1) (by omega); simp only [List.length_cons]; omega

theorem firstMin_lt {W : List Node} (h : W ≠ []) : firstMin W < W.length := by
  cases W with
  | nil => exact absurd rfl h
  | cons n W =>
    have := scanMin_lt n 0 1 W (by omega)
    simp only [firstMin, List.length_cons]
    omega

/-- Taking the minimum out of a non-empty list: the node at the first minimum and the list without it. -/
theorem takeMin_eq {W : List Node} (h : W ≠ []) :
    takeMin W = some (W[firstMin W]'(firstMin_lt h), W.eraseIdx (firstMin W)) := by
  simp [takeMin, firstMin_lt h]

theorem takeMin_perm {W W' : List Node} {A : Node} (h : takeMin W = some (A, W')) : W.Perm (A :: W') := by
  unfold takeMin at h
  split at h
  · next n hn =>
    obtain ⟨rfl, rfl⟩ := Prod.mk.inj (Option.some.inj h)
    obtain ⟨hlt, rfl⟩ := List.getElem?_eq_some_iff.1 hn
    exact (List.getElem_cons_eraseIdx_perm hlt).symm
  · exact absurd h (by simp)

/-- One pass of the loop takes two nodes out and puts their merge at the end. -/
theorem mergeStep_eq {W : List Node} (h : 2 ≤ W.length) :
    ∃ A B W₂, mergeStep W = W₂ ++ [mergeNodes A B] ∧ W.Perm (A :: B :: W₂) := by
  have h1 : W ≠ [] := by rintro rfl; simp at h
  cases ha : takeMin W with
  | none => rw [takeMin_eq h1] at ha; exact absurd ha (by simp)
  | some a =>
    obtain ⟨A, W₁⟩ := a
    have p1 := takeMin_perm ha
    have h2 : W₁ ≠ [] := by rintro rfl; have := p1.length_eq; simp at this; omega
    cases hb : takeMin W₁ with
    | none => rw [takeMin_eq h2] at hb; exact absurd hb (by simp)
    | some b =>
      obtain ⟨B, W₂⟩ := b
      exact ⟨A, B, W₂, by simp [mergeStep, ha, hb], p1.trans ((takeMin_perm hb).cons A)⟩

theorem mergeStep_length {W : List Node} (h : 2 ≤ W.length) : (mergeStep W).length + 1 = W.length := by
  obtain ⟨A, B, W₂, e, p⟩ := mergeStep_eq h
  have := p.length_eq
  simp [e] at this ⊢
  omega

/-- A property of lists that every pass keeps holds of the list the loop leaves. -/
theorem mergeLoop_induct {P : List Node → Prop} (step : ∀ W, 2 ≤ W.length → P W → P (mergeStep W)) :
    ∀ (fuel : Nat) (W : List Node), P W → P (mergeLoop fuel W) := by
  intro fuel
  induction fuel with
  | zero => intro W h; exact h
  | succ fuel ih =>
    intro W h
    unfold mergeLoop
    split
    · next hl => exact ih _ (step W hl h)
    · exact h

theorem mergeLoop_length {fuel : Nat} {W : List Node} (h0 : W ≠ []) (h : W.length ≤ fuel + 1) :
    (mergeLoop fuel W).length = 1 := by
  induction fuel generalizing W with
  | zero => have := List.length_pos_iff.2 h0; simp only [mergeLoop]; omega
  | succ fuel ih =>
    unfold mergeLoop
    split
    · next hl =>
      have := mergeStep_length hl
      exact ih (by rintro e; rw [e] at this; simp at this; omega) (by omega)
    · have := List.length_pos_iff.2 h0; omega

theorem leavesFrom_eq_filter (F : FreqTable) (n k : Nat) :
    leavesFrom k ((List.range' k n).map (fun i => F.at (BitVec.ofNat 8 i))) =
      (((List.range' k n).map (BitVec.ofNat 8)).filter (fun s => 0 < F.at s)).map
        (fun s => Node.leaf s (F.at s) false) := by
  induction n generalizing k with
  | zero => rfl
  | succ n ih =>
    simp only [List.range'_succ, List.map_cons, leavesFrom, ih, List.filter_cons]
    by_cases h : 0 < F.at (BitVec.ofNat 8 k) <;> simp [h]

/-- The initial working list as R122 writes it: a Leaf for each symbol whose count is above 0. -/
theorem initWork_eq_filter (F : FreqTable) :
    initWork F = (allSymbols.filter (fun s => 0 < F.at s)).map (fun s => Node.leaf s (F.at s) false) := by
  have e : F.toList = (List.range' 0 256).map (fun i => F.at (BitVec.ofNat 8 i)) := by
    refine List.ext_getElem (by simp) fun i h _ => ?_
    have hi : i < 256 := by simpa using h
    simp [FreqTable.at, Nat.mod_eq_of_lt hi]
  rw [initWork, e, leavesFrom_eq_filter, allSymbols, List.range_eq_range']

theorem freqCount_at_pos {x : List Byte} {s : Byte} (h : s ∈ x) : 0 < (freqCount x).at s := by
  have key : ∀ (x : List Byte) (F : FreqTable), F.at s ≤ (x.foldl FreqTable.bump F).at s ∧
      (s ∈ x → 0 < (x.foldl FreqTable.bump F).at s) := by
    intro x
    induction x with
    | nil => intro F; simp
    | cons b x ih =>
      intro F
      obtain ⟨h1, h2⟩ := ih (F.bump b)
      rw [at_bump] at h1
      refine ⟨le_trans (by split <;> omega) h1, fun hs => ?_⟩
      rcases List.mem_cons.1 hs with rfl | hs
      · rw [if_pos rfl] at h1; exact lt_of_lt_of_le (Nat.succ_pos _) h1
      · exact h2 hs
  exact (key x _).2 h

/-- BUILD_TREE has a tree for every table with a present symbol (log entry 17). -/
theorem buildTree_of_present {F : FreqTable} {s : Byte} (h : 0 < F.at s) : ∃ t, buildWork F = [t] ∧ buildTree F = some t := by
  have hne : initWork F ≠ [] := by
    intro e
    have : Node.leaf s (F.at s) false ∈ initWork F := by
      simp only [initWork_eq_filter, List.mem_map, List.mem_filter, decide_eq_true_eq]
      exact ⟨s, ⟨mem_allSymbols s, h⟩, rfl⟩
    rw [e] at this
    exact absurd this (by simp)
  obtain ⟨t, ht⟩ := List.length_eq_one_iff.1 (mergeLoop_length hne (Nat.le_succ (initWork F).length))
  exact ⟨t, ht, by simp [buildTree, buildWork, ht]⟩

/-! The parser's fuel (43_tree_serdes.md R165): a node takes at least one bit, so that a fuel above the number of bits left
is never used up (log entry 17). -/

theorem parseLeaf_rest {st st' : ParseState} {n : Node} (h : parseLeaf st = .ok (n, st')) :
    ∃ s, n = .leaf s 0 false ∧ st.rest = bits8 s ++ st'.rest ∧ s ∉ st.alpha ∧ st'.alpha = st.alpha ++ [s] ∧
      st'.nInt = st.nInt := by
  unfold parseLeaf at h
  split at h
  · exact absurd h (by simp)
  · next s rest hs =>
    split at h
    · exact absurd h (by simp)
    · next hc =>
      obtain ⟨rfl, rfl⟩ := Prod.mk.inj (Except.ok.inj h)
      exact ⟨s, rfl, readSymbol_ok hs, by simpa using hc, rfl, rfl⟩

theorem parseNode_consumes {fuel : Nat} {st st' : ParseState} {n : Node} (h : parseNode fuel st = .ok (n, st')) :
    st'.rest.length < st.rest.length := by
  induction fuel generalizing st st' n with
  | zero => exact absurd h (by simp [parseNode])
  | succ fuel ih =>
    unfold parseNode at h
    split at h
    · exact absurd h (by simp)
    · next rest hr =>
      obtain ⟨s, -, e, -⟩ := parseLeaf_rest h
      simp only at e
      simp [hr, e]
    · next rest hr =>
      split at h
      · exact absurd h (by simp)
      · split at h
        · exact absurd h (by simp)
        · next c0 st₀ h0 =>
          split at h
          · exact absurd h (by simp)
          · next c1 st₁ h1 =>
            obtain ⟨rfl, rfl⟩ := Prod.mk.inj (Except.ok.inj h)
            have := ih h0
            have := ih h1
            simp [hr] at *
            omega

theorem parseNode_fuel {fuel : Nat} {st : ParseState} (h : st.rest.length < fuel) :
    parseNode (fuel + 1) st = parseNode fuel st := by
  induction fuel generalizing st with
  | zero => omega
  | succ fuel ih =>
    rw [parseNode, parseNode]
    split
    · rfl
    · rfl
    · next rest hr =>
      simp only [hr, List.length_cons] at h
      split
      · rfl
      · rw [ih (by simpa using by omega)]
        split
        · rfl
        · next c0 st₀ h0 =>
          have := parseNode_consumes h0
          simp only at this
          rw [ih (by omega)]

end Sys2Proof.Machine
end

