-- ==== Sys2Proof/Laws/State.lean ====
section
/-! SUPPORT. One lemma per field per update of the state, so that no proof unfolds a record update. -/

namespace Sys2Proof.Machine

/-! `acceptCommand` -/

@[simp] theorem acceptCommand_build (w : Word) (s : State) : (acceptCommand w s).build = s.build := rfl
@[simp] theorem acceptCommand_busy (w : Word) (s : State) : (acceptCommand w s).busy = true := rfl
@[simp] theorem acceptCommand_done (w : Word) (s : State) : (acceptCommand w s).done = false := rfl
@[simp] theorem acceptCommand_errcode (w : Word) (s : State) : (acceptCommand w s).errcode = 0#4 := rfl
@[simp] theorem acceptCommand_inLen (w : Word) (s : State) : (acceptCommand w s).inLen = s.inLen := rfl
@[simp] theorem acceptCommand_outLen (w : Word) (s : State) : (acceptCommand w s).outLen = 0#32 := rfl
@[simp] theorem acceptCommand_cmdWord (w : Word) (s : State) : (acceptCommand w s).cmdWord = w := rfl
@[simp] theorem acceptCommand_inMem (w : Word) (s : State) : (acceptCommand w s).inMem = s.inMem := rfl
@[simp] theorem acceptCommand_outMem (w : Word) (s : State) : (acceptCommand w s).outMem = s.outMem := rfl
@[simp] theorem acceptCommand_engine (w : Word) (s : State) : (acceptCommand w s).engine = s.engine := rfl
@[simp] theorem acceptCommand_delay (w : Word) (s : State) : (acceptCommand w s).delay = Config.completionDelay s.draws := rfl
@[simp] theorem acceptCommand_draws (w : Word) (s : State) : (acceptCommand w s).draws = s.draws + 1 := rfl
@[simp] theorem acceptCommand_host (w : Word) (s : State) : (acceptCommand w s).host = s.host := rfl
@[simp] theorem acceptCommand_platform (w : Word) (s : State) : (acceptCommand w s).platform = s.platform := rfl

/-! `completeOk` -/

@[simp] theorem completeOk_build (y : List Byte) (s : State) : (completeOk y s).build = s.build := rfl
@[simp] theorem completeOk_busy (y : List Byte) (s : State) : (completeOk y s).busy = false := rfl
@[simp] theorem completeOk_done (y : List Byte) (s : State) : (completeOk y s).done = true := rfl
@[simp] theorem completeOk_errcode (y : List Byte) (s : State) : (completeOk y s).errcode = 0#4 := rfl
@[simp] theorem completeOk_inLen (y : List Byte) (s : State) : (completeOk y s).inLen = s.inLen := rfl
@[simp] theorem completeOk_outLen (y : List Byte) (s : State) : (completeOk y s).outLen = outLenWord y.length s.draws := rfl
@[simp] theorem completeOk_cmdWord (y : List Byte) (s : State) : (completeOk y s).cmdWord = s.cmdWord := rfl
@[simp] theorem completeOk_inMem (y : List Byte) (s : State) : (completeOk y s).inMem = s.inMem := rfl
@[simp] theorem completeOk_outMem (y : List Byte) (s : State) : (completeOk y s).outMem = cellsFrom 0 y := rfl
@[simp] theorem completeOk_engine (y : List Byte) (s : State) : (completeOk y s).engine = s.engine := rfl
@[simp] theorem completeOk_delay (y : List Byte) (s : State) : (completeOk y s).delay = s.delay := rfl
@[simp] theorem completeOk_draws (y : List Byte) (s : State) : (completeOk y s).draws = s.draws + 1 := rfl
@[simp] theorem completeOk_host (y : List Byte) (s : State) : (completeOk y s).host = s.host := rfl
@[simp] theorem completeOk_platform (y : List Byte) (s : State) : (completeOk y s).platform = s.platform := rfl

/-! `completeError` -/

@[simp] theorem completeError_build (e : ErrCode) (s : State) : (completeError e s).build = s.build := rfl
@[simp] theorem completeError_busy (e : ErrCode) (s : State) : (completeError e s).busy = false := rfl
@[simp] theorem completeError_done (e : ErrCode) (s : State) : (completeError e s).done = true := rfl
@[simp] theorem completeError_errcode (e : ErrCode) (s : State) : (completeError e s).errcode = e.code := rfl
@[simp] theorem completeError_inLen (e : ErrCode) (s : State) : (completeError e s).inLen = s.inLen := rfl
@[simp] theorem completeError_outLen (e : ErrCode) (s : State) : (completeError e s).outLen = 0#32 := rfl
@[simp] theorem completeError_cmdWord (e : ErrCode) (s : State) : (completeError e s).cmdWord = s.cmdWord := rfl
@[simp] theorem completeError_inMem (e : ErrCode) (s : State) : (completeError e s).inMem = s.inMem := rfl
@[simp] theorem completeError_outMem (e : ErrCode) (s : State) : (completeError e s).outMem = [] := rfl
@[simp] theorem completeError_engine (e : ErrCode) (s : State) : (completeError e s).engine = s.engine := rfl
@[simp] theorem completeError_delay (e : ErrCode) (s : State) : (completeError e s).delay = s.delay := rfl
@[simp] theorem completeError_draws (e : ErrCode) (s : State) : (completeError e s).draws = s.draws + 1 := rfl
@[simp] theorem completeError_host (e : ErrCode) (s : State) : (completeError e s).host = s.host := rfl
@[simp] theorem completeError_platform (e : ErrCode) (s : State) : (completeError e s).platform = s.platform := rfl

/-! `resetEvent` -/

@[simp] theorem resetEvent_build (s : State) : (resetEvent s).build = s.build := rfl
@[simp] theorem resetEvent_busy (s : State) : (resetEvent s).busy = false := rfl
@[simp] theorem resetEvent_done (s : State) : (resetEvent s).done = false := rfl
@[simp] theorem resetEvent_errcode (s : State) : (resetEvent s).errcode = 0#4 := rfl
@[simp] theorem resetEvent_inLen (s : State) : (resetEvent s).inLen = 0#32 := rfl
@[simp] theorem resetEvent_outLen (s : State) : (resetEvent s).outLen = 0#32 := rfl
@[simp] theorem resetEvent_cmdWord (s : State) : (resetEvent s).cmdWord = 0#32 := rfl
@[simp] theorem resetEvent_inMem (s : State) : (resetEvent s).inMem = [] := rfl
@[simp] theorem resetEvent_outMem (s : State) : (resetEvent s).outMem = [] := rfl
@[simp] theorem resetEvent_engine (s : State) : (resetEvent s).engine = Engine.reset := rfl
@[simp] theorem resetEvent_delay (s : State) : (resetEvent s).delay = 0 := rfl
@[simp] theorem resetEvent_draws (s : State) : (resetEvent s).draws = s.draws := rfl
@[simp] theorem resetEvent_host (s : State) : (resetEvent s).host = s.host := rfl
@[simp] theorem resetEvent_platform (s : State) : (resetEvent s).platform = s.platform := rfl

/-! `tick` -/

@[simp] theorem tick_build (s : State) : s.tick.build = s.build := rfl
@[simp] theorem tick_busy (s : State) : s.tick.busy = s.busy := rfl
@[simp] theorem tick_done (s : State) : s.tick.done = s.done := rfl
@[simp] theorem tick_errcode (s : State) : s.tick.errcode = s.errcode := rfl
@[simp] theorem tick_inLen (s : State) : s.tick.inLen = s.inLen := rfl
@[simp] theorem tick_outLen (s : State) : s.tick.outLen = s.outLen := rfl
@[simp] theorem tick_cmdWord (s : State) : s.tick.cmdWord = s.cmdWord := rfl
@[simp] theorem tick_inMem (s : State) : s.tick.inMem = s.inMem := rfl
@[simp] theorem tick_outMem (s : State) : s.tick.outMem = s.outMem := rfl
@[simp] theorem tick_engine (s : State) : s.tick.engine = s.engine := rfl
@[simp] theorem tick_delay (s : State) : s.tick.delay = s.delay - 1 := rfl
@[simp] theorem tick_draws (s : State) : s.tick.draws = s.draws := rfl
@[simp] theorem tick_host (s : State) : s.tick.host = s.host := rfl
@[simp] theorem tick_platform (s : State) : s.tick.platform = tickPlatform s.platform := rfl

/-! `drawByte` -/

@[simp] theorem drawByte_build (s : State) : (drawByte s).1.build = s.build := rfl
@[simp] theorem drawByte_busy (s : State) : (drawByte s).1.busy = s.busy := rfl
@[simp] theorem drawByte_done (s : State) : (drawByte s).1.done = s.done := rfl
@[simp] theorem drawByte_errcode (s : State) : (drawByte s).1.errcode = s.errcode := rfl
@[simp] theorem drawByte_inLen (s : State) : (drawByte s).1.inLen = s.inLen := rfl
@[simp] theorem drawByte_outLen (s : State) : (drawByte s).1.outLen = s.outLen := rfl
@[simp] theorem drawByte_cmdWord (s : State) : (drawByte s).1.cmdWord = s.cmdWord := rfl
@[simp] theorem drawByte_inMem (s : State) : (drawByte s).1.inMem = s.inMem := rfl
@[simp] theorem drawByte_outMem (s : State) : (drawByte s).1.outMem = s.outMem := rfl
@[simp] theorem drawByte_engine (s : State) : (drawByte s).1.engine = s.engine := rfl
@[simp] theorem drawByte_delay (s : State) : (drawByte s).1.delay = s.delay := rfl
@[simp] theorem drawByte_draws (s : State) : (drawByte s).1.draws = s.draws + 1 := rfl
@[simp] theorem drawByte_host (s : State) : (drawByte s).1.host = s.host := rfl
@[simp] theorem drawByte_platform (s : State) : (drawByte s).1.platform = s.platform := rfl

/-! `withFetchWord` -/

@[simp] theorem withFetchWord_build (s : State) (nbits w : Nat) : (s.withFetchWord nbits w).build = s.build := rfl
@[simp] theorem withFetchWord_busy (s : State) (nbits w : Nat) : (s.withFetchWord nbits w).busy = true := rfl
@[simp] theorem withFetchWord_done (s : State) (nbits w : Nat) : (s.withFetchWord nbits w).done = false := rfl
@[simp] theorem withFetchWord_errcode (s : State) (nbits w : Nat) : (s.withFetchWord nbits w).errcode = 0#4 := rfl
@[simp] theorem withFetchWord_inLen (s : State) (nbits w : Nat) : (s.withFetchWord nbits w).inLen = s.inLen := rfl
@[simp] theorem withFetchWord_outLen (s : State) (nbits w : Nat) : (s.withFetchWord nbits w).outLen = 0#32 := rfl
@[simp] theorem withFetchWord_cmdWord (s : State) (nbits w : Nat) : (s.withFetchWord nbits w).cmdWord = tableWord nbits w := rfl
@[simp] theorem withFetchWord_inMem (s : State) (nbits w : Nat) : (s.withFetchWord nbits w).inMem = s.inMem := rfl
@[simp] theorem withFetchWord_outMem (s : State) (nbits w : Nat) : (s.withFetchWord nbits w).outMem = s.outMem := rfl
@[simp] theorem withFetchWord_engine (s : State) (nbits w : Nat) : (s.withFetchWord nbits w).engine = s.engine := rfl
@[simp] theorem withFetchWord_delay (s : State) (nbits w : Nat) : (s.withFetchWord nbits w).delay = 0 := rfl
@[simp] theorem withFetchWord_draws (s : State) (nbits w : Nat) : (s.withFetchWord nbits w).draws = s.draws := rfl
@[simp] theorem withFetchWord_host (s : State) (nbits w : Nat) : (s.withFetchWord nbits w).host = s.host := rfl
@[simp] theorem withFetchWord_platform (s : State) (nbits w : Nat) : (s.withFetchWord nbits w).platform = s.platform.dropWhile (· == 0) := rfl

/-! The host's updates -/

@[simp] theorem advance_program (h : HostAgent) : h.advance.program = h.program := rfl
@[simp] theorem advance_pos (h : HostAgent) : h.advance.pos = h.pos + 1 := rfl
@[simp] theorem advance_idx (h : HostAgent) : h.advance.idx = 0 := rfl
@[simp] theorem advance_vars (h : HostAgent) : h.advance.vars = h.vars := rfl
@[simp] theorem assign_program (x : Nat) (v : Word) (h : HostAgent) : (h.assign x v).program = h.program := rfl
@[simp] theorem assign_pos (x : Nat) (v : Word) (h : HostAgent) : (h.assign x v).pos = h.pos := rfl
@[simp] theorem assign_idx (x : Nat) (v : Word) (h : HostAgent) : (h.assign x v).idx = h.idx := rfl
@[simp] theorem assign_vars (x : Nat) (v : Word) (h : HostAgent) : (h.assign x v).vars = insertKey x v h.vars := rfl

/-! STATUS.ERR after each update -/

@[simp] theorem acceptCommand_err (w : Word) (s : State) : (acceptCommand w s).err = false := rfl
@[simp] theorem completeOk_err (y : List Byte) (s : State) : (completeOk y s).err = false := rfl
@[simp] theorem completeError_err (e : ErrCode) (s : State) : (completeError e s).err = true := by cases e <;> rfl
@[simp] theorem resetEvent_err (s : State) : (resetEvent s).err = false := rfl
@[simp] theorem tick_err (s : State) : s.tick.err = s.err := rfl

/-! STATUS after each update (95_test_vectors.md: 0x00000002 on success, 0x00000006 + 16·code on error) -/

/-- STATUS depends on BUSY, DONE and ERRCODE alone. -/
theorem status_congr {s t : State} (h1 : t.busy = s.busy) (h2 : t.done = s.done) (h3 : t.errcode = s.errcode) :
    t.status = s.status := by
  simp [State.status, State.err, h1, h2, h3]

/-- STATUS of a state whose three stored fields are known. -/
theorem status_of {s : State} {b d : Bool} {e : BitVec 4} (h1 : s.busy = b) (h2 : s.done = d) (h3 : s.errcode = e) :
    s.status = (0#24 ++ e ++ 0#1 ++ BitVec.ofBool (e != 0#4) ++ BitVec.ofBool d ++ BitVec.ofBool b : BitVec 32) := by
  simp [State.status, State.err, h1, h2, h3]

@[simp] theorem acceptCommand_status (w : Word) (s : State) : (acceptCommand w s).status = 0x00000001#32 :=
  (status_of (acceptCommand_busy w s) (acceptCommand_done w s) (acceptCommand_errcode w s)).trans (by decide)

@[simp] theorem completeOk_status (y : List Byte) (s : State) : (completeOk y s).status = 0x00000002#32 :=
  (status_of (completeOk_busy y s) (completeOk_done y s) (completeOk_errcode y s)).trans (by decide)

@[simp] theorem completeError_status (e : ErrCode) (s : State) :
    (completeError e s).status = 0x00000006#32 + 16#32 * e.code.setWidth 32 :=
  (status_of (completeError_busy e s) (completeError_done e s) (completeError_errcode e s)).trans
    (by cases e <;> decide)

@[simp] theorem resetEvent_status (s : State) : (resetEvent s).status = 0x00000000#32 :=
  (status_of (resetEvent_busy s) (resetEvent_done s) (resetEvent_errcode s)).trans (by decide)

@[simp] theorem tick_status (s : State) : s.tick.status = s.status := status_congr rfl rfl rfl

end Sys2Proof.Machine
end

