-- ==== Sys2Proof/Laws/Ops.lean ====
section
/-! SUPPORT. One lemma per shared operation: memory, the host's accesses, completion, and what a step can do. -/

namespace Sys2Proof.Machine

/-! Sparse data: read after write, and the canonical form. -/

@[simp] theorem lookupKey_insertKey_self {α : Type} (k : Nat) (v : α) (m : List (Nat × α)) :
    lookupKey k (insertKey k v m) = some v := by
  induction m with
  | nil => simp [insertKey, lookupKey]
  | cons c m ih =>
    obtain ⟨j, w⟩ := c
    unfold insertKey
    split
    · simp [lookupKey]
    · split
      · simp [lookupKey]
      · next h₁ h₂ => simp [lookupKey, ih, Ne.symm h₂]

theorem lookupKey_insertKey_other {α : Type} {i k : Nat} (h : i ≠ k) (v : α) (m : List (Nat × α)) :
    lookupKey i (insertKey k v m) = lookupKey i m := by
  induction m with
  | nil => simp [insertKey, lookupKey, h.symm]
  | cons c m ih =>
    obtain ⟨j, w⟩ := c
    unfold insertKey
    split
    · simp [lookupKey, h.symm]
    · split
      · next h₁ h₂ => subst h₂; simp [lookupKey, h.symm]
      · simp [lookupKey, ih]

theorem keysRise_cons {α : Type} (k : Nat) (v : α) (m : List (Nat × α)) :
    keysRise ((k, v) :: m) = true ↔ keysRise m = true ∧ ∀ c ∈ m, k < c.1 := by
  induction m generalizing k v with
  | nil => simp [keysRise]
  | cons c m ih =>
    obtain ⟨j, w⟩ := c
    have hc : keysRise ((k, v) :: (j, w) :: m) = true ↔ k < j ∧ keysRise ((j, w) :: m) = true := by
      simp [keysRise]
    rw [hc, ih]
    constructor
    · rintro ⟨hkj, hm, hj⟩
      refine ⟨⟨hm, hj⟩, fun c hc => ?_⟩
      rcases List.mem_cons.1 hc with rfl | hc
      · exact hkj
      · exact lt_trans hkj (hj c hc)
    · rintro ⟨⟨hm, hj⟩, hk⟩
      exact ⟨hk (j, w) (by simp), hm, hj⟩

theorem mem_insertKey {α : Type} {k : Nat} {v : α} {m : List (Nat × α)} {c : Nat × α}
    (h : c ∈ insertKey k v m) : c = (k, v) ∨ c ∈ m := by
  induction m with
  | nil => simpa [insertKey] using h
  | cons d m ih =>
    obtain ⟨j, w⟩ := d
    unfold insertKey at h
    split at h
    · simpa using h
    · split at h
      · rcases List.mem_cons.1 h with h | h
        · exact .inl h
        · exact .inr (List.mem_cons_of_mem _ h)
      · rcases List.mem_cons.1 h with h | h
        · exact .inr (h ▸ List.mem_cons_self)
        · exact (ih h).imp_right (List.mem_cons_of_mem _)

theorem keysRise_insertKey {α : Type} (k : Nat) (v : α) {m : List (Nat × α)} (h : keysRise m = true) :
    keysRise (insertKey k v m) = true := by
  induction m with
  | nil => simp [insertKey, keysRise]
  | cons c m ih =>
    obtain ⟨j, w⟩ := c
    obtain ⟨hm, hj⟩ := (keysRise_cons j w m).1 h
    unfold insertKey
    split
    · next hk =>
      refine (keysRise_cons _ _ _).2 ⟨h, fun c hc => ?_⟩
      rcases List.mem_cons.1 hc with rfl | hc
      · exact hk
      · exact lt_trans hk (hj c hc)
    · split
      · next hk => subst hk; exact (keysRise_cons _ _ _).2 ⟨hm, hj⟩
      · next h₁ h₂ =>
        refine (keysRise_cons _ _ _).2 ⟨ih hm, fun c hc => ?_⟩
        rcases mem_insertKey hc with rfl | hc
        · simp only; omega
        · exact hj c hc

@[simp] theorem read_write_self (m : Memory) (a : Nat) (b : Byte) : (m.write a b).read a = some b :=
  lookupKey_insertKey_self a b m

theorem read_write_other {a i : Nat} (h : i ≠ a) (m : Memory) (b : Byte) : (m.write a b).read i = m.read i :=
  lookupKey_insertKey_other h b m

@[simp] theorem read_nil (a : Nat) : Memory.read [] a = none := rfl

theorem wf_write (a : Nat) (b : Byte) {m : Memory} (h : m.wf = true) : (m.write a b).wf = true :=
  keysRise_insertKey a b h

theorem below_write {cap a : Nat} (b : Byte) {m : Memory} (ha : a < cap) (h : m.below cap = true) :
    (m.write a b).below cap = true := by
  simp only [Memory.below, List.all_eq_true, decide_eq_true_eq] at h ⊢
  intro c hc
  rcases mem_insertKey hc with rfl | hc
  · exact ha
  · exact h c hc

/-- What a result's bytes read as. -/
theorem read_cellsFrom (a i : Nat) (y : List Byte) :
    Memory.read (cellsFrom a y) i = if a ≤ i then y[i - a]? else none := by
  induction y generalizing a with
  | nil => simp [cellsFrom]
  | cons b y ih =>
    have step : Memory.read (cellsFrom a (b :: y)) i = if a = i then some b else Memory.read (cellsFrom (a + 1) y) i := rfl
    rw [step, ih]
    rcases Nat.lt_trichotomy a i with h | h | h
    · obtain ⟨d, rfl⟩ : ∃ d, i = a + 1 + d := ⟨i - (a + 1), by omega⟩
      have e : a + 1 + d - a = d + 1 := by omega
      simp [e, show a ≠ a + 1 + d by omega, show a ≤ a + 1 + d by omega]
    · subst h; simp
    · simp [show a ≠ i by omega, show ¬ a ≤ i by omega, show ¬ a + 1 ≤ i by omega]

theorem mem_cellsFrom {a : Nat} {y : List Byte} {c : Host.Cell} (h : c ∈ cellsFrom a y) :
    a ≤ c.1 ∧ c.1 < a + y.length := by
  induction y generalizing a with
  | nil => simp [cellsFrom] at h
  | cons b y ih =>
    simp only [cellsFrom, List.mem_cons] at h
    rcases h with rfl | h
    · simp
    · have := ih h
      simp only [List.length_cons]
      omega

theorem wf_cellsFrom (a : Nat) (y : List Byte) : Memory.wf (cellsFrom a y) = true := by
  induction y generalizing a with
  | nil => rfl
  | cons b y ih =>
    exact (keysRise_cons _ _ _).2 ⟨ih (a + 1), fun c hc => by have := mem_cellsFrom hc; omega⟩

theorem below_cellsFrom {y : List Byte} {cap : Nat} (h : y.length ≤ cap) : Memory.below (cellsFrom 0 y) cap = true := by
  simp only [Memory.below, List.all_eq_true, decide_eq_true_eq]
  intro c hc
  have := mem_cellsFrom hc
  omega

/-- The bytes `readFrom` gives are the bytes of the memory, one per offset. -/
theorem readFrom_eq_some {m : Memory} {n : Nat} {x : List Byte} : ∀ {a : Nat}, m.readFrom a n = some x ↔
    x.length = n ∧ ∀ i (h : i < x.length), m.read (a + i) = some x[i] := by
  induction n generalizing x with
  | zero =>
    intro a
    simp only [Memory.readFrom, Option.some.injEq]
    constructor
    · rintro rfl; simp
    · rintro ⟨h, -⟩; exact (List.length_eq_zero_iff.1 h).symm
  | succ n ih =>
    intro a
    unfold Memory.readFrom
    constructor
    · intro h
      split at h
      · next b bs hb hbs =>
        obtain rfl := Option.some.inj h
        obtain ⟨hl, hr⟩ := ih.1 hbs
        refine ⟨by simp [hl], fun i hi => ?_⟩
        cases i with
        | zero => simpa using hb
        | succ i => simpa [Nat.add_assoc, Nat.add_comm 1 i] using hr i (by simpa using hi)
      · exact absurd h (by simp)
    · rintro ⟨hl, hr⟩
      cases x with
      | nil => simp at hl
      | cons b bs =>
        have hb : m.read a = some b := hr 0 (by simp)
        have hbs : m.readFrom (a + 1) n = some bs :=
          ih.2 ⟨by simpa using hl, fun i hi => by
            have h := hr (i + 1) (by simpa using hi)
            rwa [show a + (i + 1) = a + 1 + i by omega] at h⟩
        simp [hb, hbs]

/-! The host's accesses. -/

/-- A read changes nothing but the count of free values drawn, and that by at most one. -/
theorem hostRead_cases (sp : Space) (off : Nat) (s : State) :
    (hostRead sp off s).1 = s ∨
    ((hostRead sp off s).1 = (drawByte s).1 ∧ (hostRead sp off s).2 = (Config.freeByte s.draws).setWidth 32) := by
  cases sp with
  | reg => exact .inl rfl
  | inp =>
    simp only [hostRead, readIn, readCell]
    split
    · split
      · exact .inl rfl
      · exact .inr ⟨rfl, rfl⟩
    · exact .inl rfl
  | out =>
    simp only [hostRead, readOut, readCell]
    split
    · exact .inr ⟨rfl, rfl⟩
    · split
      · split
        · exact .inl rfl
        · exact .inr ⟨rfl, rfl⟩
      · split
        · exact .inr ⟨rfl, rfl⟩
        · exact .inl rfl

/-- What an admitted write can do: accept a command, store IN_LEN, store a byte of IN, or nothing; the first three only when
BUSY = 0. -/
theorem hostWrite_cases (sp : Space) (off : Nat) (v : Word) (s : State) :
    hostWrite sp off v s = s ∨
    (s.busy = false ∧ sp = .reg ∧ off = 0x00 ∧ hostWrite sp off v s = acceptCommand v s) ∨
    (s.busy = false ∧ sp = .reg ∧ off = 0x08 ∧ hostWrite sp off v s = { s with inLen := v }) ∨
    (s.busy = false ∧ sp = .inp ∧ off < s.build.inCap ∧
      hostWrite sp off v s = { s with inMem := s.inMem.write off (v.setWidth 8) }) := by
  cases sp with
  | reg =>
    simp only [hostWrite, writeReg]
    split
    · next h =>
      cases hb : s.busy with
      | true => exact .inl (by simp)
      | false => exact .inr (.inl (by simp [h]))
    · split
      · next h =>
        cases hb : s.busy with
        | true => exact .inl (by simp)
        | false => exact .inr (.inr (.inl (by simp [h])))
      · exact .inl rfl
  | inp =>
    simp only [hostWrite, writeIn]
    split
    · next h => exact .inr (.inr (.inr (by simp [h.1, h.2])))
    · exact .inl rfl
  | out => exact .inl rfl

/-! Completion. -/

/-- What a command's completion can be: the result bytes, within OUT_CAP, or an error. -/
theorem runAndComplete_cases (codec : List Byte → Result (List Byte))
    (after : List Byte → List Byte → Engine → Engine) (s : State) :
    (∃ y, runCodec codec s = .ok y ∧ y.length ≤ s.build.outCap ∧
      ((∃ x, s.inputBytes = some x ∧ codec x = .ok y ∧
        runAndComplete codec after s = { completeOk y s with engine := after x y s.engine }) ∨
      (s.inputBytes = none ∧ runAndComplete codec after s = completeOk y s))) ∨
    (∃ e, runCodec codec s = .error e ∧ runAndComplete codec after s = completeError e s) := by
  have limit : ∀ {r y}, limitOutput s.build.outCap r = .ok y → r = .ok y ∧ y.length ≤ s.build.outCap := by
    intro r y h
    unfold limitOutput at h
    split at h
    · split at h
      · exact absurd h (by simp)
      · next hl => obtain rfl := Except.ok.inj h; exact ⟨rfl, Nat.le_of_not_lt hl⟩
    · exact absurd h (by simp)
  cases hr : runCodec codec s with
  | error e => exact .inr ⟨e, rfl, by simp [runAndComplete, hr]⟩
  | ok y =>
    refine .inl ⟨y, rfl, ?_⟩
    have h := hr
    unfold runCodec at h
    split at h
    · exact absurd h (by simp)
    · cases hi : s.inputBytes with
      | none =>
        rw [hi] at h
        exact ⟨(limit h).2, .inr ⟨rfl, by simp [runAndComplete, hr, hi]⟩⟩
      | some x =>
        rw [hi] at h
        exact ⟨(limit h).2, .inl ⟨x, rfl, (limit h).1, by simp [runAndComplete, hr, hi]⟩⟩

/-! The step. -/

/-- What a step that answers a next state can be: RESET, the completion of the running command, or the host's turn. -/
theorem step_cases {s t : State} (h : step s = .next t) :
    (s.resetDue = true ∧ t = resetEvent s.tick) ∨
    (s.resetDue = false ∧ s.engineDue = true ∧ engineStep s.tick = .next t) ∨
    (s.resetDue = false ∧ s.engineDue = false ∧ hostTurn s.tick = .next t) := by
  unfold step at h
  cases hr : s.resetDue with
  | true => rw [hr] at h; exact .inl ⟨rfl, by simpa using h.symm⟩
  | false =>
    rw [hr] at h
    cases he : s.engineDue with
    | true => rw [he] at h; exact .inr (.inl ⟨rfl, rfl, by simpa using h⟩)
    | false => rw [he] at h; exact .inr (.inr ⟨rfl, rfl, by simpa using h⟩)

/-- What the host's turn can do, when it answers a next state: nothing, one write, one read into a variable, or only a move
of the host itself. -/
theorem hostTurn_cases {s t : State} (h : hostTurn s = .next t) :
    (s.host.current = none ∧ t = s) ∨
    (∃ sp off width v, s.host.current = some (.write sp off width v) ∧ accessAdmitted sp off width = true ∧
      t = { hostWrite sp off (s.host.operand v) s with host := s.host.advance }) ∨
    (∃ sp off x h', t = { (hostRead sp off s).1 with host := h' } ∧
      h'.program = s.host.program ∧ h'.vars = insertKey x (hostRead sp off s).2 s.host.vars) ∨
    (∃ h', t = { s with host := h' } ∧ h'.program = s.host.program ∧ h'.vars = s.host.vars) := by
  have readHost : ∀ sp off, (hostRead sp off s).1.host = s.host := by
    intro sp off
    rcases hostRead_cases sp off s with e | ⟨e, -⟩ <;> simp [e]
  unfold hostTurn at h
  cases hc : s.host.current with
  | none => rw [hc] at h; exact .inl ⟨rfl, by simpa using h.symm⟩
  | some st =>
    rw [hc] at h
    simp only at h
    refine .inr ?_
    cases st with
    | write sp off width v =>
      simp only [hostExec] at h
      split at h
      · next ha => exact .inl ⟨sp, off, width, v, rfl, ha, by simpa using h.symm⟩
      · exact absurd h (by simp)
    | read sp off width x =>
      simp only [hostExec, readInto] at h
      split at h
      · exact .inr (.inl ⟨sp, off, x, _, by simpa using h.symm, by simp [readHost], by simp [readHost]⟩)
      · exact absurd h (by simp)
    | label l => exact .inr (.inr ⟨s.host.advance, by simpa [hostExec] using h.symm, rfl, rfl⟩)
    | bne x f v l =>
      simp only [hostExec] at h
      split at h
      · exact .inr (.inr ⟨s.host.advance, by simpa using h.symm, rfl, rfl⟩)
      · split at h
        · next p _ => exact .inr (.inr ⟨{ s.host with pos := p, idx := 0 }, by simpa using h.symm, rfl, rfl⟩)
        · exact absurd h (by simp)
    | stop =>
      exact .inr (.inr ⟨{ s.host with pos := s.host.program.length, idx := 0 }, by simpa [hostExec] using h.symm, rfl, rfl⟩)
    | readBytes n buf =>
      simp only [hostExec, readInto] at h
      split at h
      · exact .inr (.inl ⟨.out, s.host.idx, buf + s.host.idx, _, by simpa using h.symm, by simp [readHost],
          by simp [readHost]⟩)
      · exact .inr (.inr ⟨s.host.advance, by simpa using h.symm, rfl, rfl⟩)

end Sys2Proof.Machine
end

