-- ==== Sys2Proof/Laws/Run.lean ====
section
/-! SUPPORT. Runs of the machine behind Host/Core.lean, and what a legal build is. -/

namespace Sys2Proof.Machine

@[simp] theorem core_run_zero (s : State) : Sys2Proof.core.run 0 s = .next s := rfl

/-- A run of one step more, when the first step answers a next state. -/
theorem core_run_succ_of_next {n : Nat} {s s' : State} (h : step s = .next s') :
    Sys2Proof.core.run (n + 1) s = Sys2Proof.core.run n s' := by
  have h' : Sys2Proof.core.step s = .next s' := h
  simp only [Host.Core.run, h']

/-- A run of one step more that answers a next state begins with a step that does. -/
theorem core_run_succ_next {n : Nat} {s t : State} (h : Sys2Proof.core.run (n + 1) s = .next t) :
    ∃ s', step s = .next s' ∧ Sys2Proof.core.run n s' = .next t := by
  cases hs : step s with
  | next s' => exact ⟨s', rfl, core_run_succ_of_next hs ▸ h⟩
  | fault r => exact nomatch r
  | refused r =>
    have hs' : Sys2Proof.core.step s = .refused r := hs
    simp only [Host.Core.run, hs'] at h
    exact absurd h (by simp)

/-- What every step keeps, every run keeps. -/
theorem core_run_induct {P : State → Prop} (hstep : ∀ s t, P s → step s = .next t → P t) {n : Nat} :
    ∀ {s t : State}, P s → Sys2Proof.core.run n s = .next t → P t := by
  induction n with
  | zero => intro s t hs h; exact Host.Outcome.next.inj h ▸ hs
  | succ n ih =>
    intro s t hs h
    obtain ⟨s', h1, h2⟩ := core_run_succ_next h
    exact ih (hstep s s' hs h1) h2

/-- The ranges of 00_scope.md R7, as inequalities. -/
theorem build_wf_iff (b : Build) :
    b.wf = true ↔ 1 ≤ b.inCap ∧ b.inCap ≤ 2 ^ 32 - 1 ∧ 1 ≤ b.outCap ∧ b.inCap + 1 ≤ 2 ^ b.cntWidth := by
  simp [Build.wf, and_assoc]

/-- The build of the reset state is legal, whatever the raw constants are (log entry 1). -/
theorem config_build_wf : Config.build.wf = true := by
  refine (build_wf_iff _).2 ⟨Nat.succ_pos _, Nat.mod_lt _ (by decide), Nat.succ_pos _, ?_⟩
  exact le_trans (Nat.le_pow_clog (by decide) _) (Nat.pow_le_pow_right (by decide) (Nat.le_add_right _ _))

end Sys2Proof.Machine
end

