-- ==== Sys2Proof/Laws/HostScript.lean ====
section
/-! SUPPORT. The host's script: its current statement, reads into variables, the STATUS field it polls, and the completion it
waits for. -/

namespace Sys2Proof.Machine

/-- The statement the host runs next is the first of what is left of its script. -/
theorem current_of_drop {h : HostAgent} {st : HostStmt} {rest : List HostStmt} (e : h.program.drop h.pos = st :: rest) :
    h.current = some st := by
  have h0 : (h.program.drop h.pos)[0]? = some st := by rw [e]; rfl
  simpa [HostAgent.current, List.getElem?_drop] using h0

/-- Going on takes the first statement off what is left. -/
theorem drop_advance {h : HostAgent} {st : HostStmt} {rest : List HostStmt} (e : h.program.drop h.pos = st :: rest) :
    h.advance.program.drop h.advance.pos = rest := by
  show h.program.drop (h.pos + 1) = rest
  rw [← List.drop_drop, e]; rfl

@[simp] theorem loadBytes_length (i : Nat) (ops : List HostOperand) : (loadBytes i ops).length = ops.length := by
  induction ops generalizing i with
  | nil => rfl
  | cons o ops ih => simp [loadBytes, ih]

@[simp] theorem loadIn_length (ops : List HostOperand) : (loadIn ops).length = ops.length + 1 := by simp [loadIn]

@[simp] theorem hostRead_host (sp : Space) (off : Nat) (s : State) : (hostRead sp off s).1.host = s.host := by
  rcases hostRead_cases sp off s with e | ⟨e, -⟩ <;> simp [e]

/-- A read into a variable: its value, every other variable, the rest of the host, and HUFCORE. -/
theorem readInto_spec (sp : Space) (off x : Nat) (s : State) :
    (readInto sp off x s).host.value x = (hostRead sp off s).2 ∧
    (∀ y, y ≠ x → (readInto sp off x s).host.value y = s.host.value y) ∧
    (readInto sp off x s).host.program = s.host.program ∧ (readInto sp off x s).host.pos = s.host.pos ∧
    (readInto sp off x s).host.idx = s.host.idx ∧
    { readInto sp off x s with host := s.host } = (hostRead sp off s).1 := by
  simp only [readInto, hostRead_host]
  refine ⟨by simp [HostAgent.value, HostAgent.assign], fun y hy => ?_, rfl, rfl, rfl, ?_⟩
  · simp [HostAgent.value, HostAgent.assign, lookupKey_insertKey_other hy]
  · rcases hostRead_cases sp off s with e | ⟨e, -⟩
    · simp [e]
    · rw [e]; rfl

/-- What `run` polls for (30_encoding.md R100): the BUSY field of a STATUS word is 0 exactly when the block is idle. -/
theorem bneValue_status_busy (s : State) : bneValue s.status (some .busy) = 0#32 ↔ s.busy = false := by
  have word : ∀ (e : BitVec 4) (a b c : Bool),
      ((0#24 ++ e ++ 0#1 ++ BitVec.ofBool a ++ BitVec.ofBool b ++ BitVec.ofBool c : BitVec 32).extractLsb' 0 1).setWidth 32 =
        0#32 ↔ c = false := by decide
  exact word _ _ _ _

/-- The engine's step always completes, and leaves what it must not touch (46_commands.md R226). -/
theorem engineStep_next (s : State) :
    ∃ t, engineStep s = .next t ∧ t.busy = false ∧ t.done = true ∧ t.build = s.build ∧ t.inLen = s.inLen ∧
      t.inMem = s.inMem ∧ t.cmdWord = s.cmdWord ∧ t.host = s.host ∧ t.platform = s.platform := by
  have run : ∀ codec after, let t := runAndComplete codec after s
      t.busy = false ∧ t.done = true ∧ t.build = s.build ∧ t.inLen = s.inLen ∧
      t.inMem = s.inMem ∧ t.cmdWord = s.cmdWord ∧ t.host = s.host ∧ t.platform = s.platform := by
    intro codec after
    rcases runAndComplete_cases codec after s with ⟨y, -, -, ⟨x, -, -, e⟩ | ⟨-, e⟩⟩ | ⟨c, -, e⟩ <;> simp [e]
  unfold engineStep
  split
  · next i _ => cases i <;> exact ⟨_, rfl, run _ _⟩
  · exact ⟨_, rfl, rfl, rfl, rfl, rfl, rfl, rfl, rfl, rfl⟩

/-- Two runs in a row are one run. -/
theorem core_run_add {n m : Nat} {s t u : State} (h : Sys2Proof.core.run n s = .next t)
    (h' : Sys2Proof.core.run m t = .next u) : Sys2Proof.core.run (n + m) s = .next u := by
  induction n generalizing s with
  | zero => cases h; simpa using h'
  | succ n ih =>
    obtain ⟨s', h1, h2⟩ := core_run_succ_next h
    rw [Nat.succ_add, core_run_succ_of_next h1]
    exact ih h2

end Sys2Proof.Machine
end

