-- ==== Sys2Proof/Laws/PerInstr.lean ====
section
/-! SUPPORT. Statements made per command, one lemma per constructor of Instr. -/

namespace Sys2Proof.Laws

/-- A command's word holds its opcode in OP and 0 in the reserved bits (spec/30_encoding.md R80, R81). -/
def CommandWord.Statement (i : Instr) : Prop :=
  i.wellFormed = true ∧ opField (encodeCmd i) = opcodeOf i ∧ rsvField (encodeCmd i) = 0#24

theorem CommandWord.encode : CommandWord.Statement .encode := by
  unfold CommandWord.Statement; decide

theorem CommandWord.decode : CommandWord.Statement .decode := by
  unfold CommandWord.Statement; decide

end Sys2Proof.Laws
end

