-- ==== Sys2Proof/Tests/Slice0.lean ====
section
/-! SUPPORT. Tests whose expected values come from the spec (95_test_vectors.md, or the rule named), the smoke tests of
WellFormed, and a witness for the hypotheses of every statement. -/

namespace Sys2Proof.Tests

open Sys2Proof Sys2Proof.Machine

/-! Small states. -/

/-- IN_CAP = OUT_CAP = 16 (P1 to P4 of 95_test_vectors.md ask for at least that). -/
def build16 : Build := { inCap := 16, outCap := 16, cntWidth := 5, regBase := 0, inBase := 0, outBase := 0 }

/-- An idle machine whose host has written the input `x` and its length. -/
def idle (x : List Byte) : State :=
  { State.reset with build := build16, inLen := BitVec.ofNat 32 x.length, inMem := cellsFrom 0 x }

/-- A machine that runs the command word `w` on `x`, due to complete. -/
def running (w : Word) (x : List Byte) : State := { idle x with busy := true, cmdWord := w }

/-- An idle machine whose host is about to run `p`. -/
def hosting (p : List HostStmt) : State := { idle [] with host := { program := p, pos := 0, idx := 0, vars := [] } }

/-- The STATUS, OUT_LEN and OUT of the next state, if there is one. -/
def outcome (o : Host.Outcome State Fault Refusal) : Option (Word × Nat × Memory) :=
  match o with
  | .next t => some (t.status, t.outLen.toNat, t.outMem)
  | .fault _ => none
  | .refused _ => none

/-- The step answers a next state. -/
def answersNext (o : Host.Outcome State Fault Refusal) : Bool :=
  match o with
  | .next _ => true
  | .fault _ => false
  | .refused _ => false

/-- "aaab", and its unit (V-ENC-1). -/
def aaab : List Byte := [0x61#8, 0x61#8, 0x61#8, 0x62#8]
def aaabUnit : List Byte := [0x4B#8, 0x15#8, 0x84#8, 0x40#8]

/-- The trees I(b, a) of V-BUILD-1 and Leaf z of V-BUILD-8, as the builder makes them. -/
def treeBA : Node := .internal (.leaf 0x62#8 1 true) (.leaf 0x61#8 3 false) 4 false
def leafZ : Node := .leaf 0x7A#8 4 false

/-! WellFormed: each check refuses an ill-formed term. -/

theorem test_build16_wellFormed : build16.wf = true := by decide
theorem test_build_inCap_zero : Build.wf { build16 with inCap := 0 } = false := by decide
theorem test_build_inCap_too_large : Build.wf { build16 with inCap := 2 ^ 32, cntWidth := 40 } = false := by decide
theorem test_build_outCap_zero : Build.wf { build16 with outCap := 0 } = false := by decide
theorem test_build_counter_too_narrow : Build.wf { build16 with cntWidth := 4 } = false := by decide
theorem test_script_halfword_reg : scriptWellFormed [.read .reg 4 2 0] = false := by decide
theorem test_script_misaligned_reg : scriptWellFormed [.write .reg 6 4 (.imm 0)] = false := by decide
theorem test_script_word_in : scriptWellFormed [.write .inp 0 4 (.imm 0)] = false := by decide
theorem test_script_word_out : scriptWellFormed [.read .out 0 4 0] = false := by decide
theorem test_script_nine_bit_immediate : scriptWellFormed [.write .inp 0 1 (.imm 0x100)] = false := by decide
theorem test_script_unknown_label : scriptWellFormed [.label 1, .bne 0 none 0 2] = false := by decide
theorem test_script_label_twice : scriptWellFormed [.label 1, .label 1] = false := by decide
theorem test_script_run_wellFormed :
    scriptWellFormed (loadIn [.imm 0x61, .var 3] ++ runCmd 1 0 0 ++ readOutTo 1 2 ++ [.stop]) = true := by decide

/-! Decoding: words written out bit by bit from 30_encoding.md R80, R81. -/

theorem test_decode_encode_word : decodeCmd 0b00000000000000000000000000000001#32 = some .encode := by decide
theorem test_decode_decode_word : decodeCmd 0b00000000000000000000000000000010#32 = some .decode := by decide
theorem test_decode_reserved_bits : decodeCmd 0b00000000000000000000000100000001#32 = none := by decide
theorem test_decode_table_row : decodeTableWord 32 2 = some .decode ∧ decodeTableWord 8 1 = some .encode := by decide

/-! The commands: V-ENC-1, V-ENC-17 (OUT_CAP = 3), V-DEC-9, V-DEC-20. -/

theorem test_encode_aaab :
    outcome (exec .encode (running 1 aaab)) =
      some (0x00000002#32, 4, [(0, 0x4B#8), (1, 0x15#8), (2, 0x84#8), (3, 0x40#8)]) := by decide +kernel

theorem test_encode_overflow :
    outcome (exec .encode { running 1 aaab with build := { build16 with outCap := 3 } }) =
      some (0x00000076#32, 0, []) := by decide +kernel

theorem test_decode_extra_byte :
    outcome (exec .decode (running 2 [0x0B#8, 0x0D#8, 0x8A#8, 0xFF#8])) =
      some (0x00000002#32, 10, cellsFrom 0
        [0x61#8, 0x62#8, 0x61#8, 0x61#8, 0x61#8, 0x61#8, 0x61#8, 0x61#8, 0x61#8, 0x61#8]) := by decide

theorem test_decode_unresolved : outcome (exec .decode (running 2 [0xB7#8, 0xA8#8])) = some (0x00000036#32, 0, []) := by
  decide

/-- V-ILL-4. -/
theorem test_illegal_word : outcome (step (running 0x101 aaab)) = some (0x00000056#32, 0, []) := by decide

/-! The stages: V-FREQ-3, V-BUILD-6, V-CODE-4, V-SER-1, V-DESER-6, V-PACK-3, V-UNPACK-10, V-PAY-10, V-PAY-6. -/

theorem test_freq : (freqCount [0x00#8, 0xFF#8, 0x00#8]).at 0x00#8 = 2 ∧ (freqCount [0x00#8, 0xFF#8, 0x00#8]).at 0xFF#8 = 1 := by
  decide +kernel

theorem test_build_merged_first : (buildTree (freqCount [0x61#8, 0x61#8, 0x61#8, 0x61#8, 0x62#8, 0x62#8, 0x63#8])).map Node.symbols =
    some [0x63#8, 0x62#8, 0x61#8] := by decide +kernel

theorem test_codes_abc : (buildTree (freqCount [0x61#8, 0x62#8, 0x63#8])).map
      (fun t => ((deriveCodes t).at 0x61#8, (deriveCodes t).at 0x62#8, (deriveCodes t).at 0x63#8)) =
    some (some [false, true], some [false, false], some [true]) := by decide

theorem test_serialize_leaf : serializeTree leafZ = [true, false, true, true, true, true, false, true, false] := by decide

theorem test_deserialize_repeated : deserializeTree
    ([false] ++ (true :: bits8 0x61#8) ++ (true :: bits8 0x61#8) ++ [true]) = .error .malformedTree := by decide

theorem test_pack_no_padding : pack [true, false, true, true, false] = [0x16#8] := by decide

theorem test_unpack_ignores_padding : unpack [0x4B#8, 0x15#8, 0x84#8, 0x41#8] = unpack aaabUnit := by decide

theorem test_payload_leaf_one : payloadDecode leafZ [false, true] = .error .unresolvedPayloadBits := by decide

theorem test_payload_ends_inside : payloadDecode (.internal (.leaf 0x63#8 0 true)
    (.internal (.leaf 0x61#8 0 true) (.leaf 0x62#8 0 false) 0 false) 0 false) [false] = .error .truncatedStream := by decide

/-! Host accesses: V-HOST-7, V-HOST-13, V-HOST-15, V-HOST-16. -/

theorem test_host_stores_inLen : readReg (hostWrite .reg 0x08 0xFFFFFFFF#32 (idle [])) 0x08 = 0xFFFFFFFF#32 := by decide

theorem test_host_out_beyond_cap :
    (hostRead .out 4 { idle [] with outLen := 4#32, build := { build16 with outCap := 4 } }).2 = 0#32 := by decide

theorem test_host_halfword_refused : step (hosting [.read .reg 4 2 0]) = .refused .accessOutsideContract := rfl

theorem test_reset_while_busy :
    outcome (step { running 1 aaab with platform := [0] }) = some (0x00000000#32, 0, []) := by decide

/-! The host interface of the pipeline: from reset, with only a command placed (log entry 18). ENCODE of no bytes is EMPTY_INPUT
(V-ENC-15), DECODE of none TRUNCATED_STREAM (V-DEC-10). -/

theorem test_first_step_encode : outcome (step (State.reset.withFetchWord 32 1)) = some (0x00000016#32, 0, []) := by decide
theorem test_first_step_decode : outcome (step (State.reset.withFetchWord 32 2)) = some (0x00000026#32, 0, []) := by decide

/-! ## Witnesses: concrete states and operands that meet the hypotheses of each statement -/

theorem witness_DecodeEncodeAgree : Instr.encode.wellFormed = true ∧ decodeCmd 0x2#32 = some .decode := by decide

theorem witness_StepRunsDecodedCommand :
    (running 2 aaabUnit).busy = true ∧ (running 2 aaabUnit).delay = 0 ∧ (running 2 aaabUnit).resetDue = false ∧
    Instr.decode.wellFormed = true ∧ decodeCmd (running 2 aaabUnit).cmdWord = some .decode := by decide

theorem witness_FetchWordRunsNext : Instr.decode.wellFormed = true := by decide

theorem witness_IllegalCommandCompletes :
    (running 0x101 []).busy = true ∧ (running 0x101 []).delay = 0 ∧ (running 0x101 []).resetDue = false ∧
    (running 0x101 []).cmdWord ≠ 0x1#32 ∧ (running 0x101 []).cmdWord ≠ 0x2#32 := by decide

theorem witness_CodecFunctionsCompose_encode : aaab ≠ [] := by decide
theorem witness_CodecFunctionsCompose_unpack_error : unpack [0x40#8] = .error .truncatedStream := by decide
theorem witness_CodecFunctionsCompose_parse_error :
    unpack [0x60#8] = .ok [] ∧ deserializeTree [] = .error .truncatedStream := by decide
theorem witness_CodecFunctionsCompose_ok : unpack [0xB7#8, 0xA0#8] = .ok (true :: bits8 0x7A#8 ++ [false]) ∧
    deserializeTree (true :: bits8 0x7A#8 ++ [false]) =
      .ok { root := .leaf 0x7A#8 0 false, used := 9, alpha := [0x7A#8] } := by decide

/-- The unit of 4 bytes fits OUT_CAP exactly (V-ENC-18). -/
theorem witness_EncodeWritesTheUnit :
    let s := { running 1 aaab with build := { build16 with inCap := 4, outCap := 4, cntWidth := 3 } }
    s.inLen.toNat ≤ s.build.inCap ∧ s.inputBytes = some aaab ∧ aaab ≠ [] ∧ encodeFn aaab = .ok aaabUnit ∧
    aaabUnit.length ≤ s.build.outCap ∧ aaabUnit.length < 2 ^ 32 := by decide +kernel

theorem witness_DecodeWritesTheBytes_ok :
    (running 2 aaabUnit).inLen.toNat ≤ (running 2 aaabUnit).build.inCap ∧ (running 2 aaabUnit).inputBytes = some aaabUnit ∧
    decodeFn aaabUnit = .ok aaab ∧ aaab.length ≤ (running 2 aaabUnit).build.outCap ∧ aaab.length < 2 ^ 32 := by
  decide
theorem witness_DecodeWritesTheBytes_error :
    (running 2 []).inLen.toNat ≤ (running 2 []).build.inCap ∧ (running 2 []).inputBytes = some [] ∧
    decodeFn [] = .error .truncatedStream := by decide

theorem witness_EmptyInputOnlyOnEncode :
    (running 1 []).inLen = 0#32 ∧ (running 2 []).inputBytes = some [] ∧ answersNext (exec .decode (running 2 [])) = true := by
  decide

/-- IN_LEN = 17 over IN_CAP = 16 (V-ENC-16, V-DEC-29), and IN_LEN = IN_CAP. -/
theorem witness_BadLengthExactlyOverCapacity :
    { running 1 [] with inLen := 17#32 }.build.inCap < { running 1 [] with inLen := 17#32 }.inLen.toNat ∧
    (running 1 (List.replicate 16 0#8)).inputBytes = some (List.replicate 16 0#8) ∧
    (running 1 (List.replicate 16 0#8)).inLen.toNat ≤ (running 1 (List.replicate 16 0#8)).build.inCap ∧
    answersNext (exec .encode (running 1 (List.replicate 16 0#8))) = true := by decide

/-- V-ENC-17 and V-DEC-30: OUT_CAP = 3. -/
theorem witness_OverflowExactlyOnLongResult :
    let s := { running 1 aaab with build := { build16 with outCap := 3 } }
    let s' := { running 2 [0x0B#8, 0x0D#8, 0x8A#8, 0xFF#8] with build := { build16 with outCap := 3 } }
    s.inLen.toNat ≤ s.build.inCap ∧ s.inputBytes = some aaab ∧ encodeFn aaab = .ok aaabUnit ∧
    s.build.outCap < aaabUnit.length ∧
    s'.inLen.toNat ≤ s'.build.inCap ∧ s'.inputBytes = some [0x0B#8, 0x0D#8, 0x8A#8, 0xFF#8] ∧
    decodeFn [0x0B#8, 0x0D#8, 0x8A#8, 0xFF#8] = .ok
      [0x61#8, 0x62#8, 0x61#8, 0x61#8, 0x61#8, 0x61#8, 0x61#8, 0x61#8, 0x61#8, 0x61#8] ∧
    outcome (exec .encode s) = some (0x00000076#32, 0, []) ∧
    outcome (exec .decode s') = some (0x00000076#32, 0, []) := by decide +kernel

theorem witness_CommandsKeepTheFrame : outcome (exec .decode (running 2 [])) = some (0x00000026#32, 0, []) := by decide

theorem witness_TablesAfterSuccess :
    (running 1 aaab).inputBytes = some aaab ∧
    outcome (exec .encode (running 1 aaab)) = some (0x00000002#32, 4, cellsFrom 0 aaabUnit) ∧
    buildTree (freqCount aaab) = some treeBA ∧
    (running 2 aaabUnit).inputBytes = some aaabUnit ∧
    outcome (exec .decode (running 2 aaabUnit)) = some (0x00000002#32, 4, cellsFrom 0 aaab) := by decide +kernel

/-- Two states that agree on the input and differ in the old OUT and in the host. -/
theorem witness_ResultDependsOnInputOnly :
    let s := running 2 aaabUnit
    let s' := { running 2 aaabUnit with outMem := [(0, 1#8)], host := (hosting [.stop]).host }
    s.build = s'.build ∧ s.inLen = s'.inLen ∧ s.inMem = s'.inMem ∧ s.draws = s'.draws ∧
    answersNext (exec .decode s) = true ∧ answersNext (exec .decode s') = true := by decide

/-- Boundary offsets of every clause of R64's reads. -/
theorem witness_HostReadTable :
    let s := { idle aaab with outLen := 4#32, outMem := cellsFrom 0 aaabUnit }
    3 < s.build.inCap ∧ s.inMem.read 3 = some 0x62#8 ∧ 4 < s.build.inCap ∧ s.inMem.read 4 = none ∧
    s.build.inCap ≤ 16 ∧ (running 1 aaab).busy = true ∧
    s.busy = false ∧ 3 < s.outLen.toNat ∧ s.outMem.read 3 = some 0x40#8 ∧
    s.outLen.toNat ≤ 4 ∧ 15 < s.build.outCap ∧ s.build.outCap ≤ 16 := by decide

theorem witness_HostWriteTable :
    (idle []).busy = false ∧ 15 < (idle []).build.inCap ∧ (idle []).build.inCap ≤ 16 ∧ (0x0C : Nat) ≠ 0x00 ∧
    (0x0C : Nat) ≠ 0x08 := by decide

theorem witness_WritesWhileBusyAreLost : (running 1 aaab).busy = true := by decide

theorem witness_AcceptanceAndStatusWriters :
    outcome (step (hosting [.write .reg 0 4 (.imm 1)])) = some (0x00000001#32, 0, []) ∧
    (hosting [.write .reg 0 4 (.imm 1)]).status ≠ 0x00000001#32 := by decide

/-- Aligned and misaligned REG, byte and word IN: both sides of R62. -/
theorem witness_AccessesOutsideContractRefused :
    let ok := hosting [.read .reg 0x3C 4 0]
    let bad := hosting [.write .reg 0x06 4 (.imm 0)]
    let bad' := hosting [.read .inp 0 4 0]
    ok.resetDue = false ∧ ok.engineDue = false ∧ ok.host.current = some (.read .reg 0x3C 4 0) ∧
    bad.resetDue = false ∧ bad.engineDue = false ∧ bad.host.current = some (.write .reg 0x06 4 (.imm 0)) ∧
    bad'.host.current = some (.read .inp 0 4 0) ∧ answersNext (step ok) = true ∧ answersNext (step bad) = false ∧
    answersNext (step bad') = false := by decide

theorem witness_HostAccessStatements :
    let s := hosting [.write .inp 15 1 (.imm 0x61)]
    let r := hosting [.read .reg 4 4 7]
    s.resetDue = false ∧ s.engineDue = false ∧ accessAdmitted .inp 15 1 = true ∧
    s.host.current = some (.write .inp 15 1 (.imm 0x61)) ∧
    r.resetDue = false ∧ r.engineDue = false ∧ accessAdmitted .reg 4 4 = true ∧
    r.host.current = some (.read .reg 4 4 7) := by decide

/-- Reading the last byte of two, and going on after it. -/
theorem witness_HostAccessStatements_readBytes :
    let at' (idx : Nat) : State :=
      { idle aaab with host := { program := [.readBytes 1 2], pos := 0, idx := idx, vars := [(1, 2#32)] } }
    (at' 1).resetDue = false ∧ (at' 1).engineDue = false ∧ (at' 1).host.current = some (.readBytes 1 2) ∧
    (at' 1).host.idx < ((at' 1).host.value 1).toNat ∧
    (at' 2).host.current = some (.readBytes 1 2) ∧ ((at' 2).host.value 1).toNat ≤ (at' 2).host.idx := by decide

theorem witness_HostControlStatements :
    let l := hosting [.label 3]
    let b := { hosting [.bne 0 (some .busy) 0#32 3, .stop, .label 3] with
      host := { program := [.bne 0 (some .busy) 0#32 3, .stop, .label 3], pos := 0, idx := 0, vars := [(0, 1#32)] } }
    let e := hosting [.stop]
    l.resetDue = false ∧ l.engineDue = false ∧ l.host.current = some (.label 3) ∧
    b.resetDue = false ∧ b.engineDue = false ∧ b.host.current = some (.bne 0 (some .busy) 0#32 3) ∧
    findLabel 3 b.host.program = some 2 ∧ bneValue (b.host.value 0) (some .busy) ≠ 0#32 ∧
    e.resetDue = false ∧ e.engineDue = false ∧ e.host.current = some .stop := by decide

theorem witness_ResetArrivesInAnyState : { running 1 aaab with platform := [0] }.resetDue = true ∧
    answersNext (step { idle aaab with platform := [1] }) = true := by decide

theorem witness_FinalStateRests : (idle aaab).final ∧ (idle aaab).resetDue = false := by
  exact ⟨⟨rfl, rfl⟩, rfl⟩

/-- Steps over which a result persists: a CMD write while BUSY = 1, and another write while BUSY = 0. -/
theorem witness_FinalStateRests_persists :
    let b := { hosting [.write .reg 0 4 (.imm 1)] with busy := true, delay := 1 }
    let w := hosting [.write .reg 8 4 (.imm 1)]
    answersNext (step b) = true ∧ b.resetDue = false ∧ b.engineDue = false ∧ b.busy = true ∧
    answersNext (step w) = true ∧ w.resetDue = false ∧ w.engineDue = false ∧
    w.host.current = some (.write .reg 8 4 (.imm 1)) := by decide

/-- `load_in` filling IN to its capacity, `run` with its label, and `read_out` of two bytes. -/
theorem witness_PseudoOperationsRun :
    let ops := List.replicate 15 (HostOperand.imm 0x61) ++ [.var 3]
    let l := hosting (loadIn ops)
    let r := hosting (runCmd 2 0 0)
    let o := { hosting (readOutTo 1 2) with outLen := 2#32, outMem := cellsFrom 0 [0x17#8, 0xA0#8] }
    l.busy = false ∧ l.platform = [] ∧ l.host.program.drop l.host.pos = loadIn ops ++ [] ∧
    ops.length ≤ l.build.inCap ∧ ops.length < 2 ^ 32 ∧
    r.busy = false ∧ r.platform = [] ∧ r.host.program.drop r.host.pos = runCmd 2 0 0 ++ [] ∧
    findLabel 0 r.host.program = some (r.host.pos + 1) ∧
    o.busy = false ∧ o.platform = [] ∧ o.host.program.drop o.host.pos = readOutTo 1 2 ++ [] ∧
    o.outLen.toNat = [0x17#8, 0xA0#8].length ∧ (∀ i : Fin 2, o.outMem.read i = [0x17#8, 0xA0#8][i]?) ∧
    (∀ i : Fin 2, 2 + i.val ≠ 1) := by decide

theorem witness_OnlyCmdWriteWakes :
    (hosting [.write .reg 0 4 (.imm 2)]).busy = false ∧
    outcome (step (hosting [.write .reg 0 4 (.imm 2)])) = some (0x00000001#32, 0, []) := by decide

theorem witness_OnlyHostWritesIn :
    (hosting [.write .inp 15 1 (.imm 0x61)]).inMem.read 15 = none ∧
    ∃ t, step (hosting [.write .inp 15 1 (.imm 0x61)]) = .next t ∧ t.inMem.read 15 = some 0x61#8 := by
  exact ⟨by decide, _, rfl, by decide⟩

theorem witness_BuildIsFixed : answersNext (step (running 2 aaabUnit)) = true := by decide

/-- A command with a delay of one step, its host stopped. -/
theorem witness_CommandCompletesAfterItsDelay :
    { running 2 aaabUnit with delay := 1 }.busy = true ∧ { running 2 aaabUnit with delay := 1 }.platform = [] ∧
    ∃ t, Sys2Proof.core.run 1 { running 2 aaabUnit with delay := 1 } = .next t := by
  exact ⟨by decide, by decide, _, rfl⟩

theorem witness_StepKeepsInvariant :
    (idle aaab).Inv ∧ ∃ t, step (idle aaab) = .next t := by
  refine ⟨⟨by decide, .inl (by decide), ?_, ?_, by decide⟩, _, rfl⟩
  · unfold State.buffersLegal; decide
  · unfold State.resultLegal; decide

theorem witness_StepKeepsTableBounds :
    (idle aaab).build.wf = true ∧ (idle aaab).engine.Bounded (idle aaab).build ∧ ∃ t, step (idle aaab) = .next t := by
  have hf : ∀ s, (idle aaab).engine.freq.at s = 0 := fun s => by
    simp [idle, State.reset, Engine.reset, FreqTable.at]
  have hc : ∀ s, (idle aaab).engine.code.at s = none := fun s => by
    simp [idle, State.reset, Engine.reset, CodeTable.at, CodeTable.empty]
  refine ⟨by decide, ⟨fun s => by rw [hf]; decide, ?_, ⟨by decide, ?_⟩, ?_, by decide, by decide, ?_, by decide⟩, _, rfl⟩
  · intro t h; exact absurd h (by simp [idle, State.reset, Engine.reset])
  · intro t h; exact absurd h (by simp [idle, State.reset, Engine.reset])
  · intro s c h; rw [hc] at h; exact absurd h (by simp)
  · intro t h; exact absurd h (by simp [idle, State.reset, Engine.reset])

theorem witness_FrequencyTableCounts : aaab ≠ [] ∧ aaab.Perm [0x62#8, 0x61#8, 0x61#8, 0x61#8] := by decide

theorem witness_FirstMinIsLeastIndex : [treeBA, leafZ] ≠ [] ∧ [treeBA, leafZ][firstMin [treeBA, leafZ]]? = some treeBA := by
  decide

theorem witness_MergePass : 2 ≤ [Node.leaf 0x61#8 3 false, Node.leaf 0x62#8 1 false].length ∧
    mergeStep [Node.leaf 0x61#8 3 false, Node.leaf 0x62#8 1 false] = [treeBA] := by decide

theorem witness_BuiltTreeShape : aaab ≠ [] ∧ buildTree (freqCount aaab) = some treeBA := by decide +kernel

theorem witness_CodesExactlyForLeaves : (deriveCodes treeBA).at 0x62#8 = some [true] ∧ 0x62#8 ∈ treeBA.symbols := by decide

theorem witness_CodewordsArePrefixFree :
    treeBA.symbols.Nodup ∧ treeBA.sidesOk = true ∧ (0x61#8 : Byte) ≠ 0x62#8 ∧
    (deriveCodes treeBA).at 0x61#8 = some [false] ∧ (deriveCodes treeBA).at 0x62#8 = some [true] := by decide

theorem witness_CodewordLengths :
    treeBA.symbols.Nodup ∧ (deriveCodes treeBA).at 0x61#8 = some [false] ∧ 2 ≤ treeBA.symbols.length ∧
    leafZ.symbols.Nodup ∧ (deriveCodes leafZ).at 0x7A#8 = some [false] ∧ leafZ.symbols.length = 1 := by decide

theorem witness_CodewordsAreComplete : treeBA.symbols.Nodup ∧ 2 ≤ treeBA.symbols.length := by decide

theorem witness_TreeFieldLength : leafZ.symbols.Nodup := by decide

theorem witness_TreeRoundTrip : buildTree (freqCount aaab) = some treeBA := by decide +kernel

theorem witness_ParsedTreeIsBounded : deserializeTree (serializeTree treeBA ++ [false, false, false, true]) =
    .ok { root := treeBA.eraseFreq, used := 19, alpha := [0x62#8, 0x61#8] } := by decide

theorem witness_ParserErrors : [true].length < 8 ∧ 0x61#8 ∈ [(0x61#8 : Byte)] := by decide

/-- A unit with zero padding and one whose last padding bit is 1 (L1-5). -/
theorem witness_PackAfterUnpack :
    unpack aaabUnit = .ok (serializeTree treeBA ++ [false, false, false, true]) ∧
    unpack [0x4B#8, 0x15#8, 0x84#8, 0x41#8] = .ok (serializeTree treeBA ++ [false, false, false, true]) := by decide

/-- V-UNPACK-2, V-UNPACK-3 and V-UNPACK-4: the headers 1, 2 and 3 on one byte. -/
theorem witness_UnpackFailsExactlyWhenTooShort :
    unpack [0x20#8] = .error .truncatedStream ∧ unpack [0x40#8] = .error .truncatedStream ∧ unpack [0x60#8] = .ok [] := by
  decide

theorem witness_PayloadLength : buildTree (freqCount aaab) = some treeBA ∧
    buildTree (freqCount [0x7A#8, 0x7A#8, 0x7A#8, 0x7A#8]) = some leafZ ∧ leafZ.symbols.length = 1 := by decide +kernel

theorem witness_WalkAgreesWithGreedy : deserializeTree (serializeTree treeBA) =
    .ok { root := treeBA.eraseFreq, used := 19, alpha := [0x62#8, 0x61#8] } := by decide

/-- The trees of two symbols and of one. -/
theorem witness_PayloadRoundTrip : aaab ≠ [] ∧ buildTree (freqCount aaab) = some treeBA := by decide +kernel

/-- V-DEC-22 (UNRESOLVED_PAYLOAD_BITS) and V-DEC-23 (MALFORMED_TREE). -/
theorem witness_DecodeErrors : decodeFn [0xB6#8, 0x18#8] = .error .unresolvedPayloadBits ∧
    decodeFn [0xEB#8, 0x0D#8, 0x86#8] = .error .malformedTree := by decide

theorem witness_EncodedUnitRoundTrip : aaab ≠ [] ∧ encodeFn aaab = .ok aaabUnit ∧ decodeFn aaabUnit = .ok aaab := by
  decide +kernel

theorem witness_EncodeOutputLength : buildTree (freqCount aaab) = some treeBA ∧ encodeFn aaab = .ok aaabUnit ∧
    presentCount (freqCount [0x7A#8]) = 1 := by decide +kernel

theorem witness_DecodeExpansionBound : decodeFn aaabUnit = .ok aaab := by decide

end Sys2Proof.Tests
end

namespace Sys2Proof.Machine

/-! The build under the host's accesses, the host's turn and the engine's step (spec/00_scope.md R7). -/

@[simp] theorem hostRead_build (sp : Space) (off : Nat) (s : State) : (hostRead sp off s).1.build = s.build := by
  rcases hostRead_cases sp off s with e | ⟨e, -⟩ <;> simp [e]

@[simp] theorem hostWrite_build (sp : Space) (off : Nat) (v : Word) (s : State) :
    (hostWrite sp off v s).build = s.build := by
  rcases hostWrite_cases sp off v s with e | ⟨-, -, -, e⟩ | ⟨-, -, -, e⟩ | ⟨-, -, -, e⟩ <;> simp [e]

theorem hostTurn_build {s t : State} (h : hostTurn s = .next t) : t.build = s.build := by
  rcases hostTurn_cases h with ⟨-, rfl⟩ | ⟨sp, off, _, v, -, -, rfl⟩ | ⟨sp, off, _, _, rfl, -, -⟩ | ⟨_, rfl, -, -⟩
  · rfl
  · exact hostWrite_build sp off (s.host.operand v) s
  · exact hostRead_build sp off s
  · rfl

theorem engineStep_build {s t : State} (h : engineStep s = .next t) : t.build = s.build := by
  obtain ⟨u, hu, -, -, hbuild, -⟩ := engineStep_next s
  obtain rfl : u = t := Host.Outcome.next.inj (hu.symm.trans h)
  exact hbuild

/-- Settles O29: RESET, a completion and the host's turn each keep the build, and time passing does too. -/
theorem buildIsFixed : Obligations.BuildIsFixed := by
  intro s t h
  rcases step_cases h with ⟨-, rfl⟩ | ⟨-, -, hengine⟩ | ⟨-, -, hhost⟩
  · simp
  · exact (engineStep_build hengine).trans (tick_build s)
  · exact (hostTurn_build hhost).trans (tick_build s)

end Sys2Proof.Machine

namespace Sys2Proof.Machine

/-! The engine's step, said once for both commands (spec/46_commands.md R221, R226). -/

/-- The codec function a command runs (R220). -/
def codecOf : Instr → List Byte → Result (List Byte)
  | .encode => encodeFn
  | .decode => decodeFn

/-- The internal tables a successful command leaves (log entry 8). -/
def tablesAfter : Instr → List Byte → List Byte → Engine → Engine
  | .encode => Engine.afterEncode
  | .decode => Engine.afterDecode

theorem exec_eq (i : Instr) (s : State) : exec i s = .next (runAndComplete (codecOf i) (tablesAfter i) s) := by
  cases i <;> rfl

/-- BAD_LENGTH is decided before the function runs (R221), so that a result means an IN_LEN within IN_CAP. -/
theorem inLen_le_of_runCodec_ok {codec : List Byte → Result (List Byte)} {s : State} {y : List Byte}
    (h : runCodec codec s = .ok y) : s.inLen.toNat ≤ s.build.inCap := by
  unfold runCodec at h
  split at h
  · exact absurd h (by simp)
  · next hle => exact Nat.le_of_not_lt hle

/-- The completions of a command: the result of its function on defined input, a free result, or an error. -/
theorem exec_cases {i : Instr} {s t : State} (h : exec i s = .next t) :
    (∃ x y, s.inLen.toNat ≤ s.build.inCap ∧ s.inputBytes = some x ∧ codecOf i x = .ok y ∧ y.length ≤ s.build.outCap ∧
      t = { completeOk y s with engine := tablesAfter i x y s.engine }) ∨
    (∃ y, s.inputBytes = none ∧ y.length ≤ s.build.outCap ∧ t = completeOk y s) ∨
    (∃ e, t = completeError e s) := by
  obtain rfl := Host.Outcome.next.inj ((exec_eq i s).symm.trans h)
  rcases runAndComplete_cases (codecOf i) (tablesAfter i) s with
    ⟨y, hrun, hy, ⟨x, hx, hcodec, ht⟩ | ⟨hnone, ht⟩⟩ | ⟨e, -, ht⟩
  · exact .inl ⟨x, y, inLen_le_of_runCodec_ok hrun, hx, hcodec, hy, ht⟩
  · exact .inr (.inl ⟨y, hnone, hy, ht⟩)
  · exact .inr (.inr ⟨e, ht⟩)

/-- The engine's step is a command's, or the error completion of an illegal command word (R224). -/
theorem engineStep_cases {s t : State} (h : engineStep s = .next t) :
    (∃ i, exec i s = .next t) ∨ t = completeError .illegalCommand s := by
  unfold engineStep at h
  split at h
  · next i _ => exact .inl ⟨i, h⟩
  · exact .inr (Host.Outcome.next.inj h).symm

/-! The host's turn, by what it changes in HUFCORE (spec/20_memory.md R64). -/

/-- The host's turn moves the host and draws free values, or it is one of the three writes that HUFCORE takes while
BUSY = 0: CMD, IN_LEN, a byte of IN. -/
theorem hostTurn_effects {s t : State} (h : hostTurn s = .next t) :
    (∃ host' draws', t = { s with host := host', draws := draws' } ∧
      (keysRise s.host.vars = true → keysRise host'.vars = true)) ∨
    (s.busy = false ∧ ∃ v, s.host.current = some (.write .reg 0x00 4 v) ∧
      t = { acceptCommand (s.host.operand v) s with host := s.host.advance }) ∨
    (s.busy = false ∧ ∃ v, t = { s with inLen := v, host := s.host.advance }) ∨
    (s.busy = false ∧ ∃ off v, off < s.build.inCap ∧ s.host.current = some (.write .inp off 1 v) ∧
      t = { s with inMem := s.inMem.write off ((s.host.operand v).setWidth 8), host := s.host.advance }) := by
  rcases hostTurn_cases h with
    ⟨-, rfl⟩ | ⟨sp, off, width, v, hcur, hadm, rfl⟩ | ⟨sp, off, x, host', rfl, -, hvars⟩ | ⟨host', rfl, -, hvars⟩
  · exact .inl ⟨_, _, rfl, id⟩
  · rcases hostWrite_cases sp off (s.host.operand v) s with
      hw | ⟨hb, rfl, rfl, hw⟩ | ⟨hb, -, -, hw⟩ | ⟨hb, rfl, hoff, hw⟩
    · exact .inl ⟨s.host.advance, s.draws, by rw [hw], id⟩
    · obtain rfl : width = 4 := by simpa [accessAdmitted] using hadm
      exact .inr (.inl ⟨hb, v, hcur, by rw [hw]⟩)
    · exact .inr (.inr (.inl ⟨hb, s.host.operand v, by rw [hw]⟩))
    · obtain rfl : width = 1 := by simpa [accessAdmitted] using hadm
      exact .inr (.inr (.inr ⟨hb, off, v, hoff, hcur, by rw [hw]⟩))
  · have hrise : keysRise s.host.vars = true → keysRise host'.vars = true := fun hr => by
      rw [hvars]; exact keysRise_insertKey _ _ hr
    rcases hostRead_cases sp off s with hr | ⟨hr, -⟩
    · exact .inl ⟨host', s.draws, by rw [hr], hrise⟩
    · exact .inl ⟨host', s.draws + 1, by rw [hr]; rfl, hrise⟩
  · exact .inl ⟨host', s.draws, rfl, fun hr => hvars ▸ hr⟩

/-! The invariant of the host-visible machine under each update (spec/10_state.md R23, R25, R30). -/

theorem code_toNat_le (e : ErrCode) : e.code.toNat ≤ 7 := by cases e <;> decide

/-- OUT_LEN of a result is at most the result's length: it is that length, or a word below 2^32 for a longer one. -/
theorem outLenWord_toNat_le (n draw : Nat) : (outLenWord n draw).toNat ≤ n := by
  unfold outLenWord
  split
  · next h => rw [BitVec.toNat_ofNat, Nat.mod_eq_of_lt h]
  · next h => exact le_trans (Nat.le_of_lt (BitVec.isLt _)) (Nat.le_of_not_lt h)

theorem State.Inv.resetEvent {s : State} (hs : s.Inv) : (resetEvent s).Inv where
  build := hs.build
  status := .inl ⟨rfl, rfl, rfl⟩
  buffers := ⟨rfl, rfl, rfl, rfl⟩
  result := ⟨Nat.zero_le _, fun _ hi => absurd hi (Nat.not_lt_zero _), fun _ => rfl⟩
  vars := hs.vars

theorem State.Inv.tick {s : State} (hs : s.Inv) : s.tick.Inv :=
  ⟨hs.build, hs.status, hs.buffers, hs.result, hs.vars⟩

/-- What the host cannot see, and its own variables in canonical form, do not touch the invariant. -/
theorem State.Inv.hidden {s : State} (hs : s.Inv) (inLen' : Word) (engine' : Engine) (draws' : Nat) {host' : HostAgent}
    (hvars : keysRise host'.vars = true) :
    { s with inLen := inLen', engine := engine', draws := draws', host := host' }.Inv :=
  ⟨hs.build, hs.status, hs.buffers, hs.result, hvars⟩

theorem State.Inv.acceptCommand {s : State} (hs : s.Inv) (w : Word) : (acceptCommand w s).Inv where
  build := hs.build
  status := .inr (.inl ⟨rfl, rfl, rfl⟩)
  buffers := hs.buffers
  result := ⟨Nat.zero_le _, fun _ hi => absurd hi (Nat.not_lt_zero _), fun _ => rfl⟩
  vars := hs.vars

theorem State.Inv.writeByte {s : State} (hs : s.Inv) {off : Nat} (hoff : off < s.build.inCap) (b : Byte) :
    { s with inMem := s.inMem.write off b }.Inv := by
  obtain ⟨hinWf, hinBelow, hout⟩ := hs.buffers
  exact ⟨hs.build, hs.status, ⟨wf_write off b hinWf, below_write b hoff hinBelow, hout⟩, hs.result, hs.vars⟩

theorem State.Inv.completeOk {s : State} (hs : s.Inv) {y : List Byte} (hy : y.length ≤ s.build.outCap) :
    (completeOk y s).Inv := by
  obtain ⟨hinWf, hinBelow, -⟩ := hs.buffers
  have hlen : (outLenWord y.length s.draws).toNat ≤ y.length := outLenWord_toNat_le _ _
  refine ⟨hs.build, .inr (.inr ⟨rfl, rfl, Nat.zero_le _⟩),
    ⟨hinWf, hinBelow, wf_cellsFrom 0 y, below_cellsFrom hy⟩, ⟨le_trans hlen hy, fun i hi => ?_, ?_⟩, hs.vars⟩
  · have hi' : i < y.length := lt_of_lt_of_le hi hlen
    simp [read_cellsFrom, hi']
  · simp

theorem State.Inv.completeError {s : State} (hs : s.Inv) (e : ErrCode) : (completeError e s).Inv := by
  obtain ⟨hinWf, hinBelow, -⟩ := hs.buffers
  exact ⟨hs.build, .inr (.inr ⟨rfl, rfl, code_toNat_le e⟩), ⟨hinWf, hinBelow, rfl, rfl⟩,
    ⟨Nat.zero_le _, fun _ hi => absurd hi (Nat.not_lt_zero _), fun _ => rfl⟩, hs.vars⟩

theorem State.Inv.engineStep {s t : State} (hs : s.Inv) (h : engineStep s = .next t) : t.Inv := by
  rcases engineStep_cases h with ⟨i, hexec⟩ | rfl
  · rcases exec_cases hexec with ⟨x, y, -, -, -, hy, rfl⟩ | ⟨y, -, hy, rfl⟩ | ⟨e, rfl⟩
    · exact (hs.completeOk hy).hidden s.inLen (tablesAfter i x y s.engine) (s.draws + 1) hs.vars
    · exact hs.completeOk hy
    · exact hs.completeError e
  · exact hs.completeError .illegalCommand

theorem State.Inv.hostTurn {s t : State} (hs : s.Inv) (h : hostTurn s = .next t) : t.Inv := by
  rcases hostTurn_effects h with
    ⟨host', draws', rfl, hvars⟩ | ⟨-, v, -, rfl⟩ | ⟨-, v, rfl⟩ | ⟨-, off, v, hoff, -, rfl⟩
  · exact hs.hidden s.inLen s.engine draws' (hvars hs.vars)
  · exact (hs.acceptCommand (s.host.operand v)).hidden s.inLen s.engine (s.draws + 1) hs.vars
  · exact hs.hidden v s.engine s.draws hs.vars
  · exact (hs.writeByte hoff _).hidden s.inLen s.engine s.draws hs.vars

/-- Settles O33: RESET sets legal values, a completion writes a result within OUT_CAP or an error, and the host's turn
accepts a command, stores IN_LEN or a byte of IN below IN_CAP, or changes nothing that the invariant names. -/
theorem stepKeepsInvariant : Obligations.StepKeepsInvariant := by
  intro s t hs h
  rcases step_cases h with ⟨-, rfl⟩ | ⟨-, -, hengine⟩ | ⟨-, -, hhost⟩
  · exact hs.tick.resetEvent
  · exact hs.tick.engineStep hengine
  · exact hs.tick.hostTurn hhost

/-! Who writes STATUS, and who writes IN (spec/10_state.md R27, R29). -/

/-- Settles O21: of the host's turns only an accepted CMD write changes BUSY, DONE or ERRCODE. -/
theorem acceptanceAndStatusWriters : Obligations.AcceptanceAndStatusWriters := by
  refine ⟨fun s w => by simp, fun s t h hne => ?_⟩
  rcases step_cases h with ⟨hreset, -⟩ | ⟨-, hdue, -⟩ | ⟨-, -, hhost⟩
  · exact .inl hreset
  · exact .inr (.inl hdue)
  · rcases hostTurn_effects hhost with
      ⟨host', draws', rfl, -⟩ | ⟨hb, v, hcur, rfl⟩ | ⟨-, v, rfl⟩ | ⟨-, off, v, -, -, rfl⟩
    · exact absurd (status_congr rfl rfl rfl) hne
    · exact .inr (.inr ⟨hb, (status_congr rfl rfl rfl).trans (acceptCommand_status (s.host.operand v) s.tick), v, hcur, rfl⟩)
    · exact absurd (status_congr rfl rfl rfl) hne
    · exact absurd (status_congr rfl rfl rfl) hne

/-- Settles O28: of the host's turns only a write of IN touches IN, and only at its own offset. -/
theorem onlyHostWritesIn : Obligations.OnlyHostWritesIn := by
  intro s t a h hne
  rcases step_cases h with ⟨hreset, -⟩ | ⟨-, -, hengine⟩ | ⟨-, -, hhost⟩
  · exact .inl hreset
  · obtain ⟨u, hu, -, -, -, -, hin, -⟩ := engineStep_next s.tick
    obtain rfl : u = t := Host.Outcome.next.inj (hu.symm.trans hengine)
    exact absurd (congrArg (Memory.read · a) hin) hne
  · rcases hostTurn_effects hhost with
      ⟨host', draws', rfl, -⟩ | ⟨-, v, -, rfl⟩ | ⟨-, v, rfl⟩ | ⟨hb, off, v, hoff, hcur, rfl⟩
    · exact absurd rfl hne
    · exact absurd rfl hne
    · exact absurd rfl hne
    · have ha : a = off := by_contra fun hother => hne (read_write_other hother _ _)
      subst ha
      exact .inr ⟨hb, hoff, v, hcur, read_write_self _ _ _⟩

/-! A result comes from the build, IN_LEN and IN alone (spec/10_state.md R37). -/

theorem runCodec_congr (codec : List Byte → Result (List Byte)) {s s' : State} (hbuild : s.build = s'.build)
    (hlen : s.inLen = s'.inLen) (hin : s.inMem = s'.inMem) (hdraws : s.draws = s'.draws) :
    runCodec codec s = runCodec codec s' := by
  simp [runCodec, State.inputBytes, hbuild, hlen, hin, hdraws]

/-- What the host sees of a completion is that of the result of RUN: the tables are beside it. -/
theorem runAndComplete_visible (codec : List Byte → Result (List Byte))
    (after : List Byte → List Byte → Engine → Engine) (s : State) :
    (runAndComplete codec after s).status = (complete (runCodec codec s) s).status ∧
    (runAndComplete codec after s).outLen = (complete (runCodec codec s) s).outLen ∧
    (runAndComplete codec after s).outMem = (complete (runCodec codec s) s).outMem := by
  rcases runAndComplete_cases codec after s with ⟨y, hrun, -, ⟨x, -, -, ht⟩ | ⟨-, ht⟩⟩ | ⟨e, hrun, ht⟩
  · rw [hrun, ht]; exact ⟨rfl, rfl, rfl⟩
  · rw [hrun, ht]; exact ⟨rfl, rfl, rfl⟩
  · rw [hrun, ht]; exact ⟨rfl, rfl, rfl⟩

theorem complete_visible_congr (r : Result (List Byte)) {s s' : State} (hdraws : s.draws = s'.draws) :
    (complete r s).status = (complete r s').status ∧ (complete r s).outLen = (complete r s').outLen ∧
    (complete r s).outMem = (complete r s').outMem := by
  cases r with
  | ok y => simp [complete, hdraws]
  | error e => simp [complete]

/-- Settles O16: both completions show the result of RUN, which is the same for both states. -/
theorem resultDependsOnInputOnly : Obligations.ResultDependsOnInputOnly := by
  intro i s s' t t' hbuild hlen hin hdraws h h'
  obtain rfl := Host.Outcome.next.inj ((exec_eq i s).symm.trans h)
  obtain rfl := Host.Outcome.next.inj ((exec_eq i s').symm.trans h')
  obtain ⟨hs1, hs2, hs3⟩ := runAndComplete_visible (codecOf i) (tablesAfter i) s
  obtain ⟨ht1, ht2, ht3⟩ := runAndComplete_visible (codecOf i) (tablesAfter i) s'
  obtain ⟨hc1, hc2, hc3⟩ := complete_visible_congr (runCodec (codecOf i) s) hdraws
  have hrun := runCodec_congr (codecOf i) hbuild hlen hin hdraws
  rw [hs1, hs2, hs3, ht1, ht2, ht3, ← hrun]
  exact ⟨hc1, hc2, hc3⟩

/-! The step of a command that is due, STATUS as a word, and the reset state (spec/10_state.md R23, R39). -/

/-- With its delay over, a state's passing of one step only counts down the next RESET. -/
theorem tick_of_delay_zero {s : State} (h : s.delay = 0) :
    s.tick = { s with platform := tickPlatform s.platform } := by
  simp [State.tick, h]

theorem step_of_engineDue {s : State} (hreset : s.resetDue = false) (hdue : s.engineDue = true) :
    step s = engineStep s.tick := by
  simp [step, hreset, hdue]

theorem engineStep_of_decode {s : State} {i : Instr} (h : decodeCmd s.cmdWord = some i) : engineStep s = exec i s := by
  simp [engineStep, h]

/-- Settles O4: the step is the engine's, and it decodes CMDWORD. -/
theorem stepRunsDecodedCommand : Obligations.StepRunsDecodedCommand := by
  intro s i hbusy hdelay hreset _ hdecode
  have hdue : s.engineDue = true := by simp [State.engineDue, hbusy, hdelay]
  rw [step_of_engineDue hreset hdue, ← tick_of_delay_zero hdelay]
  exact engineStep_of_decode hdecode

theorem withFetchWord_resetDue (s : State) (nbits w : Nat) : (s.withFetchWord nbits w).resetDue = false := by
  have hhead := List.head?_dropWhile_not (· == 0) s.platform
  simp only [State.resetDue, withFetchWord_platform]
  cases hp : (s.platform.dropWhile (· == 0)).head? with
  | none => rfl
  | some n => simpa [hp] using hhead

theorem decodeCmd_tableWord_encodeCmd (i : Instr) : decodeCmd (tableWord 32 (encodeCmd i).toNat) = some i := by
  cases i <;> decide

/-- Settles O5: withFetchWord leaves a due command, no due RESET and the command's own word. -/
theorem fetchWordRunsNext : Obligations.FetchWordRunsNext := by
  intro s i _
  rw [step_of_engineDue (withFetchWord_resetDue s _ _) rfl]
  exact engineStep_of_decode (decodeCmd_tableWord_encodeCmd i)

/-- The layout of R23 for any ERRCODE and flags. -/
theorem statusWord_layout (e : BitVec 4) (err done busy : Bool) :
    let w : Word := 0#24 ++ e ++ 0#1 ++ BitVec.ofBool err ++ BitVec.ofBool done ++ BitVec.ofBool busy
    w.getLsbD 0 = busy ∧ w.getLsbD 1 = done ∧ w.getLsbD 2 = err ∧ w.getLsbD 3 = false ∧
      w.extractLsb' 4 4 = e ∧ w.extractLsb' 8 24 = 0#24 := by
  revert e err done busy
  decide

/-- Settles O17: the layout, with ERR as the model defines it. -/
theorem statusWordLayout : Obligations.StatusWordLayout := by
  intro s
  obtain ⟨h0, h1, h2, h3, h4, h8⟩ := statusWord_layout s.errcode s.err s.done s.busy
  have herr : s.err = true ↔ s.errcode ≠ 0#4 := by simp [State.err]
  exact ⟨h0, h1, (Bool.eq_iff_iff.1 h2).trans herr, h3, h4, h8⟩

/-- Settles O25: the reset state's fields are written out in the model. -/
theorem resetValues : Obligations.ResetValues :=
  ⟨rfl, rfl, rfl, rfl, resetEvent_status State.reset, rfl, rfl, rfl, read_nil, read_nil⟩

/-- The host-visible reset state meets the invariant. -/
theorem reset_inv : State.reset.Inv where
  build := config_build_wf
  status := .inl ⟨rfl, rfl, rfl⟩
  buffers := ⟨rfl, rfl, rfl, rfl⟩
  result := ⟨Nat.zero_le _, fun _ hi => absurd hi (Nat.not_lt_zero _), fun _ => rfl⟩
  vars := rfl

/-- The reset tables are within the bounds of every build: they are zero, empty or absent (log entry 8). -/
theorem Engine.reset_bounded (b : Build) : Engine.reset.Bounded b where
  freq s := (at_replicate s 0).trans_lt (Nat.two_pow_pos _)
  root _ h := nomatch h
  work := ⟨Nat.zero_le _, fun _ h => nomatch h⟩
  code s _ h := nomatch (at_empty s).symm.trans h
  alpha := ⟨List.nodup_nil, Nat.zero_le _⟩
  cursor := Nat.le_refl _
  walk _ h := nomatch h
  outCount := Nat.zero_le _

/-- Settles O32: the build is legal whatever the raw constants are, and every table starts empty. -/
theorem resetMeetsInvariant : Obligations.ResetMeetsInvariant := ⟨reset_inv, Engine.reset_bounded _⟩

end Sys2Proof.Machine

namespace Sys2Proof.Machine

/-! The codeword table (spec/42_codeword.md R140, R142). -/

theorem walkCodes_isSome (n : Node) (p : List Bit) (T : CodeTable) (s : Byte) :
    ((walkCodes n p T).at s).isSome = true ↔ s ∈ n.symbols ∨ (T.at s).isSome = true := by
  induction n generalizing p T with
  | leaf sym f b =>
    by_cases h : sym = s
    · simp [walkCodes, Node.symbols, at_put, h]
    · simp [walkCodes, Node.symbols, at_put, h, Ne.symm h]
  | internal c0 c1 f b ih0 ih1 =>
    simp only [walkCodes, ih1, ih0, Node.symbols, List.mem_append]
    tauto

/-- A codeword of the walk below `p` goes on from `p` by at most the depth of the tree; the other entries stay. -/
theorem walkCodes_at {n : Node} {p : List Bit} {T : CodeTable} {s : Byte} {c : List Bit}
    (h : (walkCodes n p T).at s = some c) :
    T.at s = some c ∨ (p.length ≤ c.length ∧ c.length ≤ p.length + n.depth) := by
  induction n generalizing p T with
  | leaf sym f b =>
    rw [walkCodes, at_put] at h
    split at h
    · obtain rfl := Option.some.inj h
      exact .inr ⟨Nat.le_refl _, Nat.le_add_right _ _⟩
    · exact .inl h
  | internal c0 c1 f b ih0 ih1 =>
    simp only [Node.depth]
    rcases ih1 h with h1 | h1
    · rcases ih0 h1 with h0 | h0
      · exact .inl h0
      · simp only [List.length_append, List.length_singleton] at h0
        exact .inr (by omega)
    · simp only [List.length_append, List.length_singleton] at h1
      exact .inr (by omega)

theorem deriveCodes_leaf (sym : Byte) (f : Nat) (b : Bit) (s : Byte) :
    (deriveCodes (.leaf sym f b)).at s = if sym = s then some [false] else none := by
  rw [deriveCodes, at_put, at_empty]

theorem deriveCodes_isSome (t : Node) (s : Byte) : ((deriveCodes t).at s).isSome = true ↔ s ∈ t.symbols := by
  cases t with
  | leaf sym f b =>
    by_cases h : sym = s
    · simp [deriveCodes_leaf, Node.symbols, h]
    · simp [deriveCodes_leaf, Node.symbols, h, Ne.symm h]
  | internal c0 c1 f b =>
    rw [deriveCodes, walkCodes_isSome, at_empty]
    exact or_iff_left nofun

/-- A codeword has at least one bit and at most as many as the tree is deep, the single Leaf's one bit apart. -/
theorem deriveCodes_length {t : Node} {s : Byte} {c : List Bit} (h : (deriveCodes t).at s = some c) :
    1 ≤ c.length ∧ c.length ≤ max 1 t.depth := by
  cases t with
  | leaf sym f b =>
    rw [deriveCodes_leaf] at h
    split at h
    · obtain rfl := Option.some.inj h
      exact ⟨Nat.le_refl _, Nat.le_max_left _ _⟩
    · exact nomatch h
  | internal c0 c1 f b =>
    simp only [Node.depth]
    rcases walkCodes_at (n := c1) (p := [c1.side]) h with h1 | h1
    · rcases walkCodes_at (n := c0) (p := [c0.side]) h1 with h0 | h0
      · exact nomatch (at_empty s).symm.trans h0
      · simp only [List.length_singleton] at h0
        omega
    · simp only [List.length_singleton] at h1
      omega

/-- Settles O40: the walk writes a leaf's entry and no other, and every path below the root has a bit. -/
theorem codesExactlyForLeaves : Obligations.CodesExactlyForLeaves := by
  refine ⟨deriveCodes_isSome, fun t s c h => ?_, fun s f b => ?_⟩
  · exact List.ne_nil_of_length_pos (deriveCodes_length h).1
  · rw [deriveCodes_leaf, if_pos rfl]

/-! The tables after a successful command (log entries 8, 10). -/

theorem encodeFn_ok {x y : List Byte} (h : encodeFn x = .ok y) :
    ∃ t, buildTree (freqCount x) = some t ∧ buildWork (freqCount x) = [t] ∧ y = pack (encodeContent t x) := by
  unfold encodeFn at h
  split at h
  · exact nomatch h
  · next hx =>
    obtain ⟨b, hb⟩ := List.exists_mem_of_ne_nil x hx
    obtain ⟨t, hwork, htree⟩ := buildTree_of_present (freqCount_at_pos hb)
    rw [htree] at h
    exact ⟨t, htree, hwork, (Except.ok.inj h).symm⟩

theorem decodeFn_ok {x y : List Byte} (h : decodeFn x = .ok y) :
    ∃ C p, unpack x = .ok C ∧ deserializeTree C = .ok p ∧ payloadDecode p.root (C.drop p.used) = .ok y := by
  unfold decodeFn at h
  split at h
  · exact nomatch h
  · next C hC =>
    split at h
    · exact nomatch h
    · next p hp => exact ⟨C, p, hC, hp, h⟩

theorem afterEncode_eq {x : List Byte} {t : Node} (h : buildTree (freqCount x) = some t) (y : List Byte) (e : Engine) :
    Engine.afterEncode x y e =
      { e with
        freq := freqCount x, work := buildWork (freqCount x), root := some t, code := deriveCodes t
        content := encodeContent t x, cursor := (encodeContent t x).length, outCount := y.length } := by
  simp [Engine.afterEncode, h]

theorem afterDecode_eq {x : List Byte} {C : List Bit} {p : ParsedTree} (hC : unpack x = .ok C)
    (hp : deserializeTree C = .ok p) (y : List Byte) (e : Engine) :
    Engine.afterDecode x y e =
      { e with
        root := some p.root, alpha := p.alpha, content := C, cursor := C.length, walk := some p.root
        outCount := y.length } := by
  simp [Engine.afterDecode, hC, hp]

/-- A command that succeeds on defined input leaves the tables of its function's result. -/
theorem exec_ok_engine {i : Instr} {s t : State} {x : List Byte} (hx : s.inputBytes = some x)
    (h : exec i s = .next t) (herr : t.err = false) :
    ∃ y, codecOf i x = .ok y ∧ t.engine = tablesAfter i x y s.engine := by
  rcases exec_cases h with ⟨x', y, -, hx', hcodec, -, rfl⟩ | ⟨y, hnone, -, -⟩ | ⟨e, rfl⟩
  · obtain rfl := Option.some.inj (hx'.symm.trans hx)
    exact ⟨y, hcodec, rfl⟩
  · exact nomatch hnone.symm.trans hx
  · exact nomatch (completeError_err e s).symm.trans herr

/-- Settles O15: an ENCODE that succeeds has built its tree, a DECODE that succeeds has unpacked and parsed. -/
theorem tablesAfterSuccess : Obligations.TablesAfterSuccess := by
  constructor
  · intro s t x hx h herr
    obtain ⟨y, hy, hengine⟩ := exec_ok_engine hx h herr
    obtain ⟨tree, htree, hwork, -⟩ := encodeFn_ok hy
    rw [hengine, tablesAfter, afterEncode_eq htree]
    refine ⟨rfl, htree.symm, fun tree' htree' => ?_, rfl, ⟨y, hy, rfl⟩, rfl, rfl⟩
    obtain rfl := Option.some.inj (htree.symm.trans htree')
    exact ⟨rfl, hwork, rfl⟩
  · intro s t x hx h herr
    obtain ⟨y, hy, hengine⟩ := exec_ok_engine hx h herr
    obtain ⟨C, p, hC, hp, -⟩ := decodeFn_ok hy
    rw [hengine, tablesAfter, afterDecode_eq hC hp]
    exact ⟨⟨C, p, hC, hp, rfl, rfl, rfl, rfl⟩, rfl, ⟨y, hy, rfl⟩, rfl, rfl, rfl⟩

/-! FREQ_COUNT: what the counters hold (spec/41_tree_builder.md R120). -/

theorem foldl_bump_at (x : List Byte) (F : FreqTable) (s : Byte) :
    (x.foldl FreqTable.bump F).at s = F.at s + x.count s := by
  induction x generalizing F with
  | nil => rfl
  | cons b x ih =>
    rw [List.foldl_cons, ih, at_bump, List.count_cons]
    by_cases h : b = s
    · simp [h]; omega
    · simp [h]

theorem freqCount_at (x : List Byte) (s : Byte) : (freqCount x).at s = x.count s := by
  rw [freqCount, foldl_bump_at, at_replicate, Nat.zero_add]

theorem freqCount_at_le (x : List Byte) (s : Byte) : (freqCount x).at s ≤ x.length :=
  (freqCount_at x s).trans_le List.count_le_length

/-- The present symbols are those of the input, each once. -/
theorem presentSymbols_perm (x : List Byte) : (allSymbols.filter (fun s => 0 < (freqCount x).at s)).Perm x.dedup := by
  refine (List.perm_ext_iff_of_nodup (allSymbols_nodup.filter _) (List.nodup_dedup x)).2 fun s => ?_
  simp [mem_allSymbols, freqCount_at]

theorem presentSymbols_sum (x : List Byte) :
    ((allSymbols.filter (fun s => 0 < (freqCount x).at s)).map (freqCount x).at).sum = x.length := by
  rw [((presentSymbols_perm x).map (freqCount x).at).sum_eq, funext (freqCount_at x),
    List.sum_map_count_dedup_eq_length]

/-! The bounds of WORK through the merge loop (spec/10_state.md R32, R33). -/

/-- What a working list has through the loop of R124: no symbol in two leaves, and no frequency of `bound` or more, now or
in a merge to come, because the frequencies in the list add up to less. -/
structure WorkBounded (bound : Nat) (W : List Node) : Prop where
  symbols : (W.flatMap Node.symbols).Nodup
  total : (W.map Node.freq).sum < bound
  allFreq : ∀ t ∈ W, t.allFreq (fun f => f < bound) = true

theorem initWork_bounded {x : List Byte} {bound : Nat} (h : x.length < bound) :
    WorkBounded bound (initWork (freqCount x)) := by
  rw [initWork_eq_filter]
  constructor
  case symbols =>
    simpa [List.flatMap_map, Node.symbols] using allSymbols_nodup.filter _
  case total =>
    rw [List.map_map]
    exact (presentSymbols_sum x).trans_lt h
  case allFreq =>
    intro t ht
    obtain ⟨s, -, rfl⟩ := List.mem_map.1 ht
    simpa [Node.allFreq] using (freqCount_at_le x s).trans_lt h

theorem mergeNodes_freq (A B : Node) : (mergeNodes A B).freq = A.freq + B.freq := rfl

theorem mergeNodes_symbols (A B : Node) : (mergeNodes A B).symbols = A.symbols ++ B.symbols := by
  simp [mergeNodes, Node.symbols]

theorem mergeNodes_allFreq (p : Nat → Bool) (A B : Node) :
    (mergeNodes A B).allFreq p = (p (A.freq + B.freq) && A.allFreq p && B.allFreq p) := by
  simp [mergeNodes, Node.allFreq]

/-- A merge moves the symbols of its two nodes and the sum of their frequencies into one node. -/
theorem mergeStep_bounded {bound : Nat} {W : List Node} (hl : 2 ≤ W.length) (h : WorkBounded bound W) :
    WorkBounded bound (mergeStep W) := by
  obtain ⟨A, B, W₂, hstep, hperm⟩ := mergeStep_eq hl
  have htotal : A.freq + (B.freq + (W₂.map Node.freq).sum) < bound := by
    simpa [(hperm.map Node.freq).sum_eq] using h.total
  have hmem : ∀ t, t ∈ A :: B :: W₂ → t.allFreq (fun f => f < bound) = true := fun t ht =>
    h.allFreq t (hperm.mem_iff.2 ht)
  rw [hstep]
  constructor
  case symbols =>
    refine (List.Perm.nodup_iff ?_).1 h.symbols
    calc
      (W.flatMap Node.symbols).Perm ((A :: B :: W₂).flatMap Node.symbols) := hperm.flatMap_right _
      _ = (mergeNodes A B :: W₂).flatMap Node.symbols := by simp [mergeNodes_symbols]
      List.Perm _ ((W₂ ++ [mergeNodes A B]).flatMap Node.symbols) :=
        (List.perm_append_singleton _ _).symm.flatMap_right _
  case total =>
    simp only [List.map_append, List.sum_append, List.map_singleton, List.sum_singleton, mergeNodes_freq]
    omega
  case allFreq =>
    intro t ht
    rcases List.mem_append.1 ht with ht | ht
    · exact hmem t (by simp [ht])
    · obtain rfl := List.mem_singleton.1 ht
      rw [mergeNodes_allFreq, hmem A (by simp), hmem B (by simp)]
      simp
      omega

theorem buildWork_bounded {x : List Byte} {bound : Nat} (h : x.length < bound) :
    WorkBounded bound (buildWork (freqCount x)) :=
  mergeLoop_induct (fun _ => mergeStep_bounded) _ _ (initWork_bounded h)

/-! The trees the node store can hold. -/

theorem length_le_of_nodup {l : List Byte} (h : l.Nodup) : l.length ≤ 256 :=
  allSymbols_length ▸ (h.subperm fun s _ => mem_allSymbols s).length_le

/-- Distinct symbols bound a tree's leaves, and these its other nodes (10_state.md R32). -/
theorem Node.bounded_of_nodup {b : Build} {t : Node} (hsym : t.symbols.Nodup)
    (hfreq : t.allFreq (fun f => f < 2 ^ b.cntWidth) = true) : t.bounded b := by
  have hleaves := length_le_of_nodup hsym
  have hinternals := internals_add_one t
  have hcount := count_eq t
  simp only [Node.bounded, Config.maxLeaves, Config.maxInternal, Config.maxNodes]
  exact ⟨hsym, hleaves, by omega, by omega, hfreq⟩

theorem Node.bounded.depth_le {b : Build} {t : Node} (h : t.bounded b) : t.depth ≤ Config.maxCodeLen := by
  obtain ⟨-, -, hinternals, -⟩ := h
  exact (depth_le_internals t).trans hinternals

/-! What the parser returns (spec/43_tree_serdes.md R165). -/

/-- A parsed node is a Leaf, or an Internal node whose children were parsed one after the other. -/
theorem parseNode_cases {fuel : Nat} {st st' : ParseState} {n : Node} (h : parseNode (fuel + 1) st = .ok (n, st')) :
    (∃ rest, st.rest = true :: rest ∧ parseLeaf { st with rest := rest } = .ok (n, st')) ∨
    (∃ rest c0 st₀ c1, st.rest = false :: rest ∧ st.nInt ≠ Config.maxInternal ∧
      parseNode fuel { st with rest := rest, nInt := st.nInt + 1 } = .ok (c0, st₀) ∧
      parseNode fuel st₀ = .ok (c1, st') ∧ n = .internal (c0.setSide true) (c1.setSide false) 0 false) := by
  unfold parseNode at h
  split at h
  · exact nomatch h
  · next rest hr => exact .inl ⟨rest, hr, h⟩
  · next rest hr =>
    split at h
    · exact nomatch h
    · next hn =>
      split at h
      · exact nomatch h
      · next c0 st₀ h0 =>
        split at h
        · exact nomatch h
        · next c1 st₁ h1 =>
          obtain ⟨rfl, rfl⟩ := Prod.mk.inj (Except.ok.inj h)
          exact .inr ⟨rest, c0, st₀, c1, hr, hn, h0, h1, rfl⟩

/-- ALPHA grows by the symbols of the parsed node and stays without repetition; every frequency is 0. -/
theorem parseNode_ok {fuel : Nat} {st st' : ParseState} {n : Node} (h : parseNode fuel st = .ok (n, st')) :
    st'.alpha = st.alpha ++ n.symbols ∧ (st.alpha.Nodup → st'.alpha.Nodup) ∧
    ∀ p : Nat → Bool, p 0 = true → n.allFreq p = true := by
  induction fuel generalizing st st' n with
  | zero => exact nomatch h
  | succ fuel ih =>
    rcases parseNode_cases h with ⟨rest, -, hleaf⟩ | ⟨rest, c0, st₀, c1, -, -, h0, h1, rfl⟩
    · obtain ⟨s, rfl, -, hnew, halpha, -⟩ := parseLeaf_rest hleaf
      refine ⟨halpha, fun hnodup => ?_, fun p hp => hp⟩
      rw [halpha]
      exact hnodup.append (List.nodup_singleton s) (by simpa using hnew)
    · obtain ⟨halpha0, hnodup0, hfreq0⟩ := ih h0
      obtain ⟨halpha1, hnodup1, hfreq1⟩ := ih h1
      refine ⟨?_, fun hnodup => hnodup1 (hnodup0 hnodup), fun p hp => ?_⟩
      · simp [halpha1, halpha0, Node.symbols]
      · simp [Node.allFreq, hp, hfreq0 p hp, hfreq1 p hp]

theorem deserializeTree_ok {C : List Bit} {p : ParsedTree} (h : deserializeTree C = .ok p) :
    p.alpha = p.root.symbols ∧ p.root.symbols.Nodup ∧ ∀ q : Nat → Bool, q 0 = true → p.root.allFreq q = true := by
  unfold deserializeTree at h
  split at h
  · exact nomatch h
  · next root st hparse =>
    obtain rfl := Except.ok.inj h
    obtain ⟨halpha, hnodup, hfreq⟩ := parseNode_ok hparse
    have halpha' : st.alpha = root.symbols := by simpa using halpha
    exact ⟨halpha', halpha' ▸ hnodup List.nodup_nil, hfreq⟩

/-! The bounds of the internal tables under each step (spec/10_state.md R31 to R36). -/

theorem Engine.Bounded.afterEncode {b : Build} {e : Engine} (he : e.Bounded b) {x y : List Byte}
    (hx : x.length < 2 ^ b.cntWidth) (hy : y.length ≤ b.outCap) (h : encodeFn x = .ok y) :
    (Engine.afterEncode x y e).Bounded b := by
  obtain ⟨t, htree, hwork, -⟩ := encodeFn_ok h
  have hbounded : t.bounded b := by
    have hw := buildWork_bounded hx
    rw [hwork] at hw
    exact Node.bounded_of_nodup (by simpa using hw.symbols) (hw.allFreq t (by simp))
  rw [afterEncode_eq htree, hwork]
  exact
    { freq := fun s => (freqCount_at_le x s).trans_lt hx
      root := fun t' ht => Option.some.inj ht ▸ hbounded
      work := ⟨(by decide : 1 ≤ Config.maxLeaves), fun t' ht => List.mem_singleton.1 ht ▸ hbounded⟩
      code := fun s c hc => by
        obtain ⟨hpos, hle⟩ := deriveCodes_length hc
        exact ⟨hpos, hle.trans (Nat.max_le.2 ⟨by decide, hbounded.depth_le⟩)⟩
      alpha := he.alpha
      cursor := Nat.le_refl _
      walk := he.walk
      outCount := hy }

theorem Engine.Bounded.afterDecode {b : Build} {e : Engine} (he : e.Bounded b) {x y : List Byte}
    (hy : y.length ≤ b.outCap) (h : decodeFn x = .ok y) : (Engine.afterDecode x y e).Bounded b := by
  obtain ⟨C, p, hC, hp, -⟩ := decodeFn_ok h
  obtain ⟨halpha, hnodup, hfreq⟩ := deserializeTree_ok hp
  have hbounded : p.root.bounded b := Node.bounded_of_nodup hnodup (hfreq _ (by simp))
  rw [afterDecode_eq hC hp]
  exact
    { freq := he.freq
      root := fun t ht => Option.some.inj ht ▸ hbounded
      work := he.work
      code := he.code
      alpha := by rw [halpha]; exact ⟨hnodup, length_le_of_nodup hnodup⟩
      cursor := Nat.le_refl _
      walk := fun t ht => Option.some.inj ht ▸ hbounded
      outCount := hy }

/-- In a legal build CNT_WIDTH holds the length of every input a command runs on (00_scope.md R7). -/
theorem inputBytes_length_lt {s : State} {x : List Byte} (hwf : s.build.wf = true)
    (hlen : s.inLen.toNat ≤ s.build.inCap) (hx : s.inputBytes = some x) : x.length < 2 ^ s.build.cntWidth := by
  obtain ⟨-, -, -, hwidth⟩ := (build_wf_iff s.build).1 hwf
  obtain ⟨hxlen, -⟩ := readFrom_eq_some.1 hx
  omega

theorem exec_bounded {i : Instr} {s t : State} (hwf : s.build.wf = true) (hs : s.engine.Bounded s.build)
    (h : exec i s = .next t) : t.engine.Bounded s.build := by
  rcases exec_cases h with ⟨x, y, hlen, hx, hcodec, hy, rfl⟩ | ⟨y, -, -, rfl⟩ | ⟨e, rfl⟩
  · cases i with
    | encode => exact hs.afterEncode (inputBytes_length_lt hwf hlen hx) hy hcodec
    | decode => exact hs.afterDecode hy hcodec
  · exact hs
  · exact hs

theorem hostTurn_engine {s t : State} (h : hostTurn s = .next t) : t.engine = s.engine := by
  rcases hostTurn_effects h with ⟨_, _, rfl, -⟩ | ⟨-, _, -, rfl⟩ | ⟨-, _, rfl⟩ | ⟨-, _, _, -, -, rfl⟩ <;> rfl

/-- Settles O34: only RESET and a successful command write the tables; what a command writes comes from an input that
CNT_WIDTH can count, or from a parse that rejects repeated symbols. -/
theorem stepKeepsTableBounds : Obligations.StepKeepsTableBounds := by
  intro s t hwf hs h
  rw [buildIsFixed s t h]
  rcases step_cases h with ⟨-, rfl⟩ | ⟨-, -, hengine⟩ | ⟨-, -, hhost⟩
  · exact Engine.reset_bounded _
  · rcases engineStep_cases hengine with ⟨i, hexec⟩ | rfl
    · exact exec_bounded (s := s.tick) hwf hs hexec
    · exact hs
  · rw [hostTurn_engine hhost]
    exact hs

end Sys2Proof.Machine

namespace Sys2Proof.Machine

/-! The host's reads, case by case (spec/20_memory.md R64). -/

theorem readReg_of_other {off : Nat} (hstatus : off ≠ 0x04) (hinLen : off ≠ 0x08) (houtLen : off ≠ 0x0C) (s : State) :
    readReg s off = 0#32 := by
  simp [readReg, hstatus, hinLen, houtLen]

theorem readCell_of_some {m : Memory} {off : Nat} {b : Byte} (h : m.read off = some b) (s : State) :
    readCell m off s = (s, b.setWidth 32) := by
  simp [readCell, h]

theorem readCell_of_none {m : Memory} {off : Nat} (h : m.read off = none) (s : State) :
    readCell m off s = drawByte s := by
  simp [readCell, h]

theorem hostRead_inp_below {off : Nat} {s : State} (h : off < s.build.inCap) :
    hostRead .inp off s = readCell s.inMem off s := if_pos h

theorem hostRead_inp_beyond {off : Nat} {s : State} (h : s.build.inCap ≤ off) : hostRead .inp off s = (s, 0#32) :=
  if_neg (Nat.not_lt.2 h)

theorem hostRead_out_busy {s : State} (h : s.busy = true) (off : Nat) : hostRead .out off s = drawByte s := if_pos h

theorem hostRead_out_result {off : Nat} {s : State} (hbusy : s.busy = false) (h : off < s.outLen.toNat) :
    hostRead .out off s = readCell s.outMem off s := by
  simp [hostRead, readOut, hbusy, h]

theorem hostRead_out_above_result {off : Nat} {s : State} (hbusy : s.busy = false) (h : s.outLen.toNat ≤ off) :
    hostRead .out off s = if off < s.build.outCap then drawByte s else (s, 0#32) := by
  simp [hostRead, readOut, hbusy, Nat.not_lt.2 h]

/-- Settles O18: R64's rows of reads, each the lemma of its case; a byte without a value is a draw. -/
theorem hostReadTable : Obligations.HostReadTable := by
  intro s off
  refine ⟨rfl, rfl, rfl, rfl, rfl, fun hstatus hinLen houtLen => readReg_of_other hstatus hinLen houtLen s,
    ?inWritten, ?inUnwritten, hostRead_inp_beyond, fun hbusy => hostRead_out_busy hbusy off,
    ?outResult, ?outRest, ?outBeyond⟩
  case inWritten =>
    intro b hoff hb
    rw [hostRead_inp_below hoff, readCell_of_some hb]
  case inUnwritten =>
    intro hoff hnone
    rw [hostRead_inp_below hoff, readCell_of_none hnone]
    rfl
  case outResult =>
    intro b hbusy hoff hb
    rw [hostRead_out_result hbusy hoff, readCell_of_some hb]
  case outRest =>
    intro hbusy hlen hcap
    rw [hostRead_out_above_result hbusy hlen, if_pos hcap]
    rfl
  case outBeyond =>
    intro hbusy hlen hcap
    rw [hostRead_out_above_result hbusy hlen, if_neg (Nat.not_lt.2 hcap)]

/-! The host's writes while BUSY = 0 (spec/20_memory.md R64). -/

theorem hostWrite_cmd {s : State} (hbusy : s.busy = false) (v : Word) : hostWrite .reg 0x00 v s = acceptCommand v s := by
  simp [hostWrite, writeReg, hbusy]

theorem hostWrite_inLen {s : State} (hbusy : s.busy = false) (v : Word) :
    hostWrite .reg 0x08 v s = { s with inLen := v } := by
  simp [hostWrite, writeReg, hbusy]

theorem hostWrite_reg_other {off : Nat} (hcmd : off ≠ 0x00) (hinLen : off ≠ 0x08) (v : Word) (s : State) :
    hostWrite .reg off v s = s := by
  simp [hostWrite, writeReg, hcmd, hinLen]

theorem hostWrite_inp_below {off : Nat} {s : State} (hbusy : s.busy = false) (h : off < s.build.inCap) (v : Word) :
    hostWrite .inp off v s = { s with inMem := s.inMem.write off (v.setWidth 8) } := if_pos ⟨h, hbusy⟩

theorem hostWrite_inp_beyond {off : Nat} {s : State} (h : s.build.inCap ≤ off) (v : Word) :
    hostWrite .inp off v s = s := if_neg fun hin => Nat.not_lt.2 h hin.1

/-- Settles O19: R64's rows of writes; a write of IN below IN_CAP is one `Memory.write`, whose read rules give the bytes. -/
theorem hostWriteTable : Obligations.HostWriteTable := by
  intro s off v hbusy
  refine ⟨hostWrite_cmd hbusy v, hostWrite_inLen hbusy v, fun hcmd hinLen => hostWrite_reg_other hcmd hinLen v s,
    fun hoff => ?_, fun hoff => hostWrite_inp_beyond hoff v, rfl⟩
  rw [hostWrite_inp_below hbusy hoff]
  exact ⟨read_write_self _ _ _, fun a ha => read_write_other ha _ _, rfl⟩

/-! The host contract (spec/20_memory.md R62). -/

theorem accessAdmitted_iff (sp : Space) (off width : Nat) : accessAdmitted sp off width = true ↔
    (sp = .reg ∧ width = 4 ∧ off % 4 = 0) ∨ (sp ≠ .reg ∧ width = 1) := by
  cases sp <;> simp [accessAdmitted]

/-- With no RESET and no completion due, the step is the host's next statement. -/
theorem step_of_hostStatement {s : State} {st : HostStmt} (hreset : s.resetDue = false) (hdue : s.engineDue = false)
    (hcur : s.host.current = some st) : step s = hostExec st s.tick := by
  simp [step, hostTurn, hreset, hdue, hcur]

/-- A read or write is performed exactly when the contract admits it. -/
theorem hostExec_access {st : HostStmt} {sp : Space} {off width : Nat}
    (hst : (∃ v, st = .write sp off width v) ∨ (∃ x, st = .read sp off width x)) (s : State) :
    (accessAdmitted sp off width = true → ∃ t, hostExec st s = .next t) ∧
    (¬accessAdmitted sp off width = true → hostExec st s = .refused .accessOutsideContract) := by
  rcases hst with ⟨v, rfl⟩ | ⟨x, rfl⟩
  · exact ⟨fun hadm => ⟨_, if_pos hadm⟩, fun hadm => if_neg hadm⟩
  · exact ⟨fun hadm => ⟨_, if_pos hadm⟩, fun hadm => if_neg hadm⟩

/-- Settles O22: the step is the host's access, and `accessAdmitted` is R62's condition. -/
theorem accessesOutsideContractRefused : Obligations.AccessesOutsideContractRefused := by
  intro s sp off width hreset hdue haccess
  rw [← accessAdmitted_iff]
  obtain ⟨st, hcur, hst⟩ : ∃ st, s.host.current = some st ∧
      ((∃ v, st = .write sp off width v) ∨ (∃ x, st = .read sp off width x)) := by
    rcases haccess with ⟨v, hcur⟩ | ⟨x, hcur⟩
    · exact ⟨_, hcur, .inl ⟨v, rfl⟩⟩
    · exact ⟨_, hcur, .inr ⟨x, rfl⟩⟩
  rw [step_of_hostStatement hreset hdue hcur]
  exact hostExec_access hst s.tick

end Sys2Proof.Machine

namespace Sys2Proof.Machine

/-! The packed unit (spec/44_bitstream.md R181, R183). -/

/-- The bits of a packed unit: the header, the content, and the padding to whole bytes. -/
def unitBits (C : List Bit) : List Bit :=
  bits3 ((3 + C.length) % 8) ++ C ++ List.replicate ((8 - (3 + C.length) % 8) % 8) false

/-- PACK leaves the content unchanged behind the header. -/
theorem pack_eq_bitsToBytes (C : List Bit) : pack C = bitsToBytes (unitBits C) := by
  have hlen : (List.replicate Config.headerWidth false ++ C).length = 3 + C.length := by
    rw [List.length_append, List.length_replicate, Config.headerWidth]
  have hcontent : (List.replicate Config.headerWidth false ++ C).drop Config.headerWidth = C :=
    List.drop_left' List.length_replicate
  simp only [pack, unitBits, hlen, hcontent]

theorem unitBits_length (C : List Bit) : (unitBits C).length = 8 * ((3 + C.length + 7) / 8) := by
  simp only [unitBits, List.length_append, bits3_length, List.length_replicate]
  omega

/-- Settles O48: PACK's bits are whole bytes, so that writing them as bytes loses none. -/
theorem packedUnitLayout : Obligations.PackedUnitLayout := by
  intro C
  rw [pack_eq_bitsToBytes]
  exact bytesToBits_bitsToBytes (unitBits_length C)

end Sys2Proof.Machine

namespace Sys2Proof

/-! The command word and its fields (spec/30_encoding.md R80, R81). -/

/-- Settles O1: the words are literals, and the decoder compares them. -/
theorem tableWordsDecode : Obligations.TableWordsDecode := by
  unfold Obligations.TableWordsDecode
  decide

/-- A word is its two fields, RSV above OP. -/
theorem eq_append_iff_fields (w : Word) (rsv : BitVec 24) (op : BitVec 8) :
    w = (rsv ++ op : BitVec 32) ↔ rsvField w = rsv ∧ opField w = op := by
  constructor
  · rintro rfl
    exact ⟨BitVec.extractLsb'_append_eq_left, BitVec.extractLsb'_append_eq_right⟩
  · rintro ⟨rfl, rfl⟩
    have hwhole : (rsvField w ++ opField w : BitVec 32) = w.extractLsb' 0 32 :=
      BitVec.extractLsb'_append_extractLsb'_eq_extractLsb' (start₂ := 8) rfl
    rw [hwhole, BitVec.extractLsb'_eq_self]

/-- The decoder (R84) answers a command exactly on the command's own word. -/
theorem decodeCmd_eq_some_iff (w : Word) (i : Instr) : decodeCmd w = some i ↔ w = encodeCmd i := by
  constructor
  · intro h
    unfold decodeCmd at h
    split at h
    · next hw => cases h; exact hw
    · split at h
      · next hw => cases h; exact hw
      · cases h
  · rintro rfl
    cases i <;> decide

/-- The decoder by fields: the reserved bits are 0 and OP is the command's opcode. -/
theorem decodeCmd_eq_some_iff_fields (w : Word) (i : Instr) :
    decodeCmd w = some i ↔ rsvField w = 0#24 ∧ opField w = opcodeOf i :=
  (decodeCmd_eq_some_iff w i).trans (eq_append_iff_fields w 0#24 (opcodeOf i))

/-- Settles O2: R81's two rows by their fields, and a word is illegal when it is the word of neither. -/
theorem opcodeMapIsTotal : Obligations.OpcodeMapIsTotal := by
  intro w
  have hencode := decodeCmd_eq_some_iff_fields w .encode
  have hdecode := decodeCmd_eq_some_iff_fields w .decode
  refine ⟨hencode, hdecode, ?_⟩
  have hillegal : decodeCmd w = none ↔ decodeCmd w ≠ some .encode ∧ decodeCmd w ≠ some .decode := by
    rcases decodeCmd w with _ | _ | _ <;> decide
  rw [hillegal, Ne, Ne, hencode, hdecode]
  simp only [opcodeOf]
  tauto

/-- Settles O3: both directions of `decodeCmd_eq_some_iff`. -/
theorem decodeEncodeAgree : Obligations.DecodeEncodeAgree :=
  ⟨fun i _ => (decodeCmd_eq_some_iff _ i).2 rfl, fun w i => (decodeCmd_eq_some_iff w i).1⟩

end Sys2Proof

namespace Sys2Proof.Machine

/-! The host's statements, one step each (spec/30_encoding.md R99). -/

section HostStatement

variable {s : State} (hreset : s.resetDue = false) (hdue : s.engineDue = false)
include hreset hdue

theorem step_of_write {sp : Space} {off width : Nat} {v : HostOperand}
    (hcur : s.host.current = some (.write sp off width v)) (hadm : accessAdmitted sp off width = true) :
    step s = .next { hostWrite sp off (s.host.operand v) s.tick with host := s.host.advance } :=
  (step_of_hostStatement hreset hdue hcur).trans (if_pos hadm)

theorem step_of_read {sp : Space} {off width x : Nat}
    (hcur : s.host.current = some (.read sp off width x)) (hadm : accessAdmitted sp off width = true) :
    step s = .next { readInto sp off x s.tick with host := (readInto sp off x s.tick).host.advance } :=
  (step_of_hostStatement hreset hdue hcur).trans (if_pos hadm)

theorem step_of_readBytes {n buf : Nat} (hcur : s.host.current = some (.readBytes n buf))
    (hidx : s.host.idx < (s.host.value n).toNat) :
    step s = .next { readInto .out s.host.idx (buf + s.host.idx) s.tick with
      host := { (readInto .out s.host.idx (buf + s.host.idx) s.tick).host with idx := s.host.idx + 1 } } :=
  (step_of_hostStatement hreset hdue hcur).trans (if_pos hidx)

theorem step_of_readBytes_end {n buf : Nat} (hcur : s.host.current = some (.readBytes n buf))
    (hidx : (s.host.value n).toNat ≤ s.host.idx) : step s = .next { s.tick with host := s.host.advance } :=
  (step_of_hostStatement hreset hdue hcur).trans (if_neg (Nat.not_lt.2 hidx))

theorem step_of_label {l : Nat} (hcur : s.host.current = some (.label l)) :
    step s = .next { s.tick with host := s.host.advance } :=
  step_of_hostStatement hreset hdue hcur

theorem step_of_bne_eq {x l : Nat} {f : Option StatusField} {v : Word}
    (hcur : s.host.current = some (.bne x f v l)) (heq : bneValue (s.host.value x) f = v) :
    step s = .next { s.tick with host := s.host.advance } :=
  (step_of_hostStatement hreset hdue hcur).trans (if_pos heq)

theorem step_of_bne_ne {x l p : Nat} {f : Option StatusField} {v : Word}
    (hcur : s.host.current = some (.bne x f v l)) (hne : bneValue (s.host.value x) f ≠ v)
    (hlabel : findLabel l s.host.program = some p) :
    step s = .next { s.tick with host := { s.host with pos := p, idx := 0 } } := by
  rw [step_of_hostStatement hreset hdue hcur]
  refine (if_neg hne).trans ?_
  rw [tick_host, hlabel]

theorem step_of_stop (hcur : s.host.current = some .stop) :
    step s = .next { s.tick with host := { s.host with pos := s.host.program.length, idx := 0 } } :=
  step_of_hostStatement hreset hdue hcur

end HostStatement

/-- Settles O23: each access is one step; what a read into a variable leaves is `readInto_spec`. -/
theorem hostAccessStatements : Obligations.HostAccessStatements := by
  intro s hreset hdue
  refine ⟨fun sp off width v hadm hcur => step_of_write hreset hdue hcur hadm, ?rd, ?readBytes,
    fun n buf hcur hidx => step_of_readBytes_end hreset hdue hcur hidx⟩
  case rd =>
    intro sp off width x hadm hcur
    obtain ⟨hvalue, hothers, hprogram, hpos, -, hblock⟩ := readInto_spec sp off x s.tick
    exact ⟨_, step_of_read hreset hdue hcur hadm, hvalue, hothers, congrArg (· + 1) hpos, hprogram, hblock⟩
  case readBytes =>
    intro n buf hcur hidx
    obtain ⟨hvalue, hothers, hprogram, hpos, -, hblock⟩ := readInto_spec .out s.host.idx (buf + s.host.idx) s.tick
    exact ⟨_, step_of_readBytes hreset hdue hcur hidx, hvalue, hothers, hpos, rfl, hprogram, hblock⟩

/-- Settles O24: a `bne` goes on or jumps as the comparison says, and `end` moves the host to the end of its script. -/
theorem hostControlStatements : Obligations.HostControlStatements := by
  intro s hreset hdue
  refine ⟨fun l hcur => step_of_label hreset hdue hcur, ?bne, ?stop⟩
  case bne =>
    intro x f v l p hcur hlabel
    split
    · next heq => exact step_of_bne_eq hreset hdue hcur heq
    · next hne => exact step_of_bne_ne hreset hdue hcur hne hlabel
  case stop =>
    intro hcur
    exact ⟨_, step_of_stop hreset hdue hcur, List.getElem?_eq_none (Nat.le_refl _), rfl⟩

end Sys2Proof.Machine

namespace Sys2Proof.Machine

/-! Steps in which only the host moves, with BUSY = 0 or a delay to wait out, and no RESET to come (spec/20_memory.md R69). -/

/-- `s`, `k` steps later, when nothing but the host has moved, to `h`. -/
def State.afterHost (s : State) (k : Nat) (h : HostAgent) : State := { s with delay := s.delay - k, host := h }

theorem afterHost_afterHost (s : State) (j k : Nat) (h h' : HostAgent) :
    (s.afterHost j h).afterHost k h' = s.afterHost (j + k) h' := by
  simp [State.afterHost, Nat.sub_sub]

theorem tick_of_platform_nil {s : State} (h : s.platform = []) : s.tick = { s with delay := s.delay - 1 } := by
  simp [State.tick, h, tickPlatform]

theorem resetDue_of_platform_nil {s : State} (h : s.platform = []) : s.resetDue = false := by
  simp [State.resetDue, h]

theorem engineDue_of_idle {s : State} (h : s.busy = false) : s.engineDue = false := by
  simp [State.engineDue, h]

theorem engineDue_of_delay {s : State} (h : s.delay ≠ 0) : s.engineDue = false := by
  simp [State.engineDue, h]

theorem value_assign_self (h : HostAgent) (x : Nat) (v : Word) : (h.assign x v).value x = v := by
  simp [HostAgent.value]

theorem value_assign_other {x y : Nat} (hne : y ≠ x) (h : HostAgent) (v : Word) : (h.assign x v).value y = h.value y := by
  simp [HostAgent.value, lookupKey_insertKey_other hne]

theorem operand_congr {h h' : HostAgent} (hvars : h'.vars = h.vars) (o : HostOperand) : h'.operand o = h.operand o := by
  cases o with
  | imm v => rfl
  | var x => simp only [HostAgent.operand, HostAgent.value, hvars]

theorem core_run_one {s t : State} (h : step s = .next t) : Sys2Proof.core.run 1 s = .next t :=
  core_run_succ_of_next h

/-- A property that counts the steps, carried along a run of `m` of them. -/
theorem core_run_count {P : Nat → State → Prop} {s : State} {m : Nat} (hstart : P 0 s)
    (hstep : ∀ j t, j < m → P j t → ∃ u, step t = .next u ∧ P (j + 1) u) :
    ∃ t, Sys2Proof.core.run m s = .next t ∧ P m t := by
  induction m with
  | zero => exact ⟨s, rfl, hstart⟩
  | succ m ih =>
    obtain ⟨t, hrun, ht⟩ := ih fun j t hj => hstep j t (Nat.lt_succ_of_lt hj)
    obtain ⟨u, hu, hP⟩ := hstep m t (Nat.lt_succ_self m) ht
    exact ⟨u, core_run_add hrun (core_run_one hu), hP⟩

section HostAlone

variable {s : State} {rest : List HostStmt} (hplatform : s.platform = []) (hdue : s.engineDue = false)
include hplatform hdue

theorem step_afterHost_readReg {off x : Nat}
    (hscript : s.host.program.drop s.host.pos = .read .reg off 4 x :: rest) (hoff : off % 4 = 0) :
    step s = .next (s.afterHost 1 (s.host.assign x (readReg s off)).advance) := by
  have hadm : accessAdmitted .reg off 4 = true := by simp [accessAdmitted, hoff]
  rw [step_of_read (resetDue_of_platform_nil hplatform) hdue (current_of_drop hscript) hadm,
    tick_of_platform_nil hplatform]
  rfl

theorem step_afterHost_label {l : Nat} (hscript : s.host.program.drop s.host.pos = .label l :: rest) :
    step s = .next (s.afterHost 1 s.host.advance) := by
  rw [step_of_label (resetDue_of_platform_nil hplatform) hdue (current_of_drop hscript), tick_of_platform_nil hplatform]
  rfl

theorem step_afterHost_bne_eq {x l : Nat} {f : Option StatusField} {v : Word}
    (hscript : s.host.program.drop s.host.pos = .bne x f v l :: rest) (heq : bneValue (s.host.value x) f = v) :
    step s = .next (s.afterHost 1 s.host.advance) := by
  rw [step_of_bne_eq (resetDue_of_platform_nil hplatform) hdue (current_of_drop hscript) heq,
    tick_of_platform_nil hplatform]
  rfl

theorem step_afterHost_bne_ne {x l p : Nat} {f : Option StatusField} {v : Word}
    (hscript : s.host.program.drop s.host.pos = .bne x f v l :: rest) (hne : bneValue (s.host.value x) f ≠ v)
    (hlabel : findLabel l s.host.program = some p) :
    step s = .next (s.afterHost 1 { s.host with pos := p, idx := 0 }) := by
  rw [step_of_bne_ne (resetDue_of_platform_nil hplatform) hdue (current_of_drop hscript) hne hlabel,
    tick_of_platform_nil hplatform]
  rfl

end HostAlone

section IdleBlock

variable {s : State} {rest : List HostStmt} (hidle : s.busy = false) (hplatform : s.platform = [])
include hidle hplatform

/-- `readBytes` at a byte of the result. -/
theorem step_afterHost_readBytes {n buf : Nat} {b : Byte}
    (hscript : s.host.program.drop s.host.pos = .readBytes n buf :: rest)
    (hmore : s.host.idx < (s.host.value n).toNat) (hidx : s.host.idx < s.outLen.toNat)
    (hbyte : s.outMem.read s.host.idx = some b) :
    step s = .next (s.afterHost 1
      { s.host.assign (buf + s.host.idx) (b.setWidth 32) with idx := s.host.idx + 1 }) := by
  have hread : hostRead .out s.host.idx s.tick = (s.tick, b.setWidth 32) :=
    (hostRead_out_result (s := s.tick) hidle hidx).trans (readCell_of_some hbyte s.tick)
  rw [step_of_readBytes (resetDue_of_platform_nil hplatform) (engineDue_of_idle hidle) (current_of_drop hscript) hmore,
    readInto, hread, tick_of_platform_nil hplatform]
  rfl

theorem step_afterHost_readBytes_end {n buf : Nat}
    (hscript : s.host.program.drop s.host.pos = .readBytes n buf :: rest)
    (hidx : (s.host.value n).toNat ≤ s.host.idx) : step s = .next (s.afterHost 1 s.host.advance) := by
  rw [step_of_readBytes_end (resetDue_of_platform_nil hplatform) (engineDue_of_idle hidle) (current_of_drop hscript) hidx,
    tick_of_platform_nil hplatform]
  rfl

theorem step_writeByte {off : Nat} {v : HostOperand}
    (hscript : s.host.program.drop s.host.pos = .write .inp off 1 v :: rest) (hoff : off < s.build.inCap) :
    step s = .next { s.afterHost 1 s.host.advance with
      inMem := s.inMem.write off ((s.host.operand v).setWidth 8) } := by
  rw [step_of_write (resetDue_of_platform_nil hplatform) (engineDue_of_idle hidle) (current_of_drop hscript) rfl,
    hostWrite_inp_below (s := s.tick) hidle hoff, tick_of_platform_nil hplatform]
  rfl

theorem step_writeInLen {v : HostOperand}
    (hscript : s.host.program.drop s.host.pos = .write .reg regINLEN 4 v :: rest) :
    step s = .next { s.afterHost 1 s.host.advance with inLen := s.host.operand v } := by
  rw [step_of_write (resetDue_of_platform_nil hplatform) (engineDue_of_idle hidle) (current_of_drop hscript) rfl,
    regINLEN, hostWrite_inLen (s := s.tick) hidle, tick_of_platform_nil hplatform]
  rfl

theorem step_writeCmd {v : HostOperand}
    (hscript : s.host.program.drop s.host.pos = .write .reg regCMD 4 v :: rest) :
    step s = .next { acceptCommand (s.host.operand v) s with host := s.host.advance } := by
  rw [step_of_write (resetDue_of_platform_nil hplatform) (engineDue_of_idle hidle) (current_of_drop hscript) rfl,
    regCMD, hostWrite_cmd (s := s.tick) hidle, tick_of_platform_nil hplatform]
  rfl

end IdleBlock

/-! `load_in` (spec/30_encoding.md R100). -/

/-- `t` is `s` with the first `j` byte writes of `load_in ops` done; `after` is what follows the byte writes. -/
structure LoadedSoFar (ops : List HostOperand) (after : List HostStmt) (s : State) (j : Nat) (t : State) : Prop where
  block : t = { s.afterHost j t.host with inMem := t.inMem }
  script : t.host.program.drop t.host.pos = loadBytes j (ops.drop j) ++ after
  vars : t.host.vars = s.host.vars
  written : ∀ i (h : i < ops.length), i < j → t.inMem.read i = some ((s.host.operand ops[i]).setWidth 8)
  unwritten : ∀ a, j ≤ a → t.inMem.read a = s.inMem.read a

theorem LoadedSoFar.step {ops : List HostOperand} {after : List HostStmt} {s t : State} {j : Nat}
    (hidle : s.busy = false) (hplatform : s.platform = []) (hcap : ops.length ≤ s.build.inCap) (hj : j < ops.length)
    (ht : LoadedSoFar ops after s j t) : ∃ u, step t = .next u ∧ LoadedSoFar ops after s (j + 1) u := by
  obtain ⟨hblock, hscript, hvars, hwritten, hunwritten⟩ := ht
  generalize t.host = h, t.inMem = m at *
  subst hblock
  have hdrop : h.program.drop h.pos = .write .inp j 1 ops[j] :: (loadBytes (j + 1) (ops.drop (j + 1)) ++ after) := by
    rw [hscript, List.drop_eq_getElem_cons hj]; rfl
  refine ⟨_, step_writeByte (s := { s.afterHost j h with inMem := m }) hidle hplatform hdrop
    (Nat.lt_of_lt_of_le hj hcap), rfl, drop_advance hdrop, hvars,
    fun i hi hij => ?_, fun a ha => ?_⟩
  · rcases Nat.lt_succ_iff_lt_or_eq.1 hij with hlt | rfl
    · exact (read_write_other (Nat.ne_of_lt hlt) _ _).trans (hwritten i hi hlt)
    · rw [← operand_congr hvars]
      exact read_write_self _ _ _
  · exact (read_write_other (Nat.ne_of_gt ha) _ _).trans (hunwritten a (Nat.le_of_succ_le ha))

/-- `load_in`: the byte writes one by one, then the write of IN_LEN. -/
theorem loadIn_runs {s : State} {ops : List HostOperand} {rest : List HostStmt} (hidle : s.busy = false)
    (hplatform : s.platform = []) (hscript : s.host.program.drop s.host.pos = loadIn ops ++ rest)
    (hcap : ops.length ≤ s.build.inCap) (hcount : ops.length < 2 ^ 32) :
    ∃ t, Sys2Proof.core.run (ops.length + 1) s = .next t ∧ t.inLen.toNat = ops.length ∧
      (∀ i (h : i < ops.length), t.inMem.read i = some ((s.host.operand ops[i]).setWidth 8)) ∧
      (∀ a, ops.length ≤ a → t.inMem.read a = s.inMem.read a) ∧
      t.host.program.drop t.host.pos = rest ∧ t.host.vars = s.host.vars ∧
      t.busy = false ∧ t.status = s.status ∧ t.outLen = s.outLen ∧ t.outMem = s.outMem := by
  have hstart : LoadedSoFar ops (.write .reg regINLEN 4 (.imm (BitVec.ofNat 32 ops.length)) :: rest) s 0 s :=
    ⟨rfl, by rw [hscript, loadIn, List.append_assoc]; rfl, rfl, fun _ _ h => absurd h (Nat.not_lt_zero _), fun _ _ => rfl⟩
  obtain ⟨t, hrun, ht⟩ := core_run_count hstart fun j t hj ht => ht.step hidle hplatform hcap hj
  obtain ⟨hblock, hscript', hvars, hwritten, hunwritten⟩ := ht
  rw [List.drop_length] at hscript'
  generalize t.host = h, t.inMem = m at *
  subst hblock
  have hlast := step_writeInLen (s := { s.afterHost ops.length h with inMem := m }) hidle hplatform hscript'
  exact ⟨_, core_run_add hrun (core_run_one hlast),
    Nat.mod_eq_of_lt hcount, fun i hi => hwritten i hi hi, hunwritten, drop_advance hscript', hvars, hidle, rfl, rfl, rfl⟩

/-! `read_out` (spec/30_encoding.md R100). -/

/-- `t` is `s` with the first `j` bytes of `y` read by `readBytes` into the variables from `buf` on. -/
structure ReadSoFar (buf : Nat) (y : List Byte) (s : State) (j : Nat) (t : State) : Prop where
  block : t = s.afterHost j t.host
  script : t.host.program.drop t.host.pos = s.host.program.drop s.host.pos
  idx : t.host.idx = j
  bytes : ∀ i (h : i < y.length), i < j → t.host.value (buf + i) = y[i].setWidth 32
  others : ∀ z, (∀ i < j, z ≠ buf + i) → t.host.value z = s.host.value z

theorem ReadSoFar.step {n buf : Nat} {y : List Byte} {rest : List HostStmt} {s t : State} {j : Nat}
    (hidle : s.busy = false) (hplatform : s.platform = [])
    (hscript : s.host.program.drop s.host.pos = .readBytes n buf :: rest)
    (houtLen : s.outLen.toNat = y.length) (hout : ∀ i (h : i < y.length), s.outMem.read i = some y[i])
    (hn : ∀ i < y.length, buf + i ≠ n) (hcount : s.host.value n = s.outLen) (hj : j < y.length)
    (ht : ReadSoFar buf y s j t) : ∃ u, step t = .next u ∧ ReadSoFar buf y s (j + 1) u := by
  obtain ⟨hblock, hscript', hidx, hbytes, hothers⟩ := ht
  generalize t.host = h at *
  subst hblock hidx
  have hmore : h.idx < (h.value n).toNat := by
    rw [hothers n fun i hi => (hn i (hi.trans hj)).symm, hcount, houtLen]
    exact hj
  refine ⟨_, step_afterHost_readBytes (s := s.afterHost h.idx h) hidle hplatform (hscript'.trans hscript) hmore
    (houtLen ▸ hj) (hout _ hj), rfl, hscript', rfl, fun i hi hij => ?_, fun z hz => ?_⟩
  · rcases Nat.lt_succ_iff_lt_or_eq.1 hij with hlt | rfl
    · exact (value_assign_other (Nat.ne_of_lt (Nat.add_lt_add_left hlt buf)) h _).trans (hbytes i hi hlt)
    · exact value_assign_self h _ _
  · exact (value_assign_other (hz _ (Nat.lt_succ_self _)) h _).trans (hothers z fun i hi => hz i (Nat.lt_succ_of_lt hi))

/-- `readBytes` reads the whole result and goes on. -/
theorem readBytes_runs {s : State} {n buf : Nat} {y : List Byte} {rest : List HostStmt} (hidle : s.busy = false)
    (hplatform : s.platform = []) (hscript : s.host.program.drop s.host.pos = .readBytes n buf :: rest)
    (hidx : s.host.idx = 0) (houtLen : s.outLen.toNat = y.length)
    (hout : ∀ i (h : i < y.length), s.outMem.read i = some y[i]) (hn : ∀ i < y.length, buf + i ≠ n)
    (hcount : s.host.value n = s.outLen) :
    ∃ h, Sys2Proof.core.run (y.length + 1) s = .next (s.afterHost (y.length + 1) h) ∧
      (∀ i (hi : i < y.length), h.value (buf + i) = y[i].setWidth 32) ∧
      (∀ z, (∀ i < y.length, z ≠ buf + i) → h.value z = s.host.value z) ∧ h.program.drop h.pos = rest := by
  have hstart : ReadSoFar buf y s 0 s := ⟨rfl, rfl, hidx, fun _ _ h => absurd h (Nat.not_lt_zero _), fun _ _ => rfl⟩
  obtain ⟨t, hrun, hblock, hscript', hidx', hbytes, hothers⟩ := core_run_count hstart fun j t hj ht =>
    ht.step hidle hplatform hscript houtLen hout hn hcount hj
  generalize t.host = h at *
  subst hblock
  have hall : (h.value n).toNat ≤ h.idx := by
    rw [hothers n fun i hi => (hn i hi).symm, hcount, houtLen, hidx']
  have hend := step_afterHost_readBytes_end (s := s.afterHost y.length h) hidle hplatform (hscript'.trans hscript) hall
  rw [afterHost_afterHost] at hend
  exact ⟨_, core_run_add hrun (core_run_one hend), fun i hi => hbytes i hi hi, hothers,
    drop_advance (hscript'.trans hscript)⟩

/-- `read_out`: OUT_LEN into its variable, then the bytes. -/
theorem readOut_runs {s : State} {n buf : Nat} {y : List Byte} {rest : List HostStmt} (hidle : s.busy = false)
    (hplatform : s.platform = []) (hscript : s.host.program.drop s.host.pos = readOutTo n buf ++ rest)
    (houtLen : s.outLen.toNat = y.length) (hout : ∀ i (h : i < y.length), s.outMem.read i = some y[i])
    (hn : ∀ i < y.length, buf + i ≠ n) :
    ∃ t, Sys2Proof.core.run (y.length + 2) s = .next t ∧ t.host.value n = s.outLen ∧
      (∀ i (h : i < y.length), t.host.value (buf + i) = y[i].setWidth 32) ∧
      (∀ z, z ≠ n → (∀ i < y.length, z ≠ buf + i) → t.host.value z = s.host.value z) ∧
      t.host.program.drop t.host.pos = rest ∧ t.busy = false ∧ t.status = s.status ∧ t.outLen = s.outLen ∧
      t.outMem = s.outMem ∧ t.inLen = s.inLen ∧ t.inMem = s.inMem := by
  have hfirst := step_afterHost_readReg hplatform (engineDue_of_idle hidle) hscript rfl
  have hcount : (s.host.assign n s.outLen).advance.value n = s.outLen := value_assign_self s.host n s.outLen
  obtain ⟨h, hrun, hbytes, hothers, hrest⟩ := readBytes_runs (s := s.afterHost 1 (s.host.assign n s.outLen).advance)
    hidle hplatform (drop_advance hscript) rfl houtLen hout hn hcount
  refine ⟨_, (core_run_succ_of_next hfirst).trans hrun, ?_, hbytes, fun z hz hbuf => ?_, hrest, hidle, rfl, rfl, rfl, rfl,
    rfl⟩
  · exact (hothers n fun i hi => (hn i hi).symm).trans hcount
  · exact (hothers z hbuf).trans (value_assign_other hz s.host s.outLen)

/-! `run` (spec/30_encoding.md R100). -/

/-- What `run` polls with, behind its CMD write. -/
def pollLoop (w x : Nat) : List HostStmt := [.label w, .read .reg regSTATUS 4 x, .bne x (some .busy) 0#32 w]

/-- The host waits in the loop of `run`, before `rest`: at the label, at the read of STATUS, or at the `bne` with a STATUS
that was read while BUSY = 1. -/
structure Polling (w x : Nat) (rest : List HostStmt) (h : HostAgent) : Prop where
  label : ∃ p, findLabel w h.program = some p ∧ h.program.drop p = pollLoop w x ++ rest
  stands : h.program.drop h.pos = pollLoop w x ++ rest ∨
    h.program.drop h.pos = .read .reg regSTATUS 4 x :: .bne x (some .busy) 0#32 w :: rest ∨
    (h.program.drop h.pos = .bne x (some .busy) 0#32 w :: rest ∧ bneValue (h.value x) (some .busy) ≠ 0#32)

/-- While the command runs, the host goes round the loop. -/
theorem Polling.step {w x : Nat} {rest : List HostStmt} {s : State} (hbusy : s.busy = true) (hdelay : s.delay ≠ 0)
    (hplatform : s.platform = []) (hpoll : Polling w x rest s.host) :
    ∃ h, step s = .next (s.afterHost 1 h) ∧ Polling w x rest h := by
  have hdue := engineDue_of_delay hdelay
  obtain ⟨⟨p, hlabel, hloop⟩, hpos | hpos | ⟨hpos, hvalue⟩⟩ := hpoll
  · exact ⟨_, step_afterHost_label hplatform hdue hpos, ⟨p, hlabel, hloop⟩, .inr (.inl (drop_advance hpos))⟩
  · have hread : bneValue ((s.host.assign x s.status).value x) (some .busy) ≠ 0#32 := by
      rw [value_assign_self, Ne, bneValue_status_busy, hbusy]
      decide
    exact ⟨_, step_afterHost_readReg hplatform hdue hpos rfl, ⟨p, hlabel, hloop⟩, .inr (.inr ⟨drop_advance hpos, hread⟩)⟩
  · exact ⟨_, step_afterHost_bne_ne hplatform hdue hpos hvalue hlabel, ⟨p, hlabel, hloop⟩, .inl hloop⟩

/-- After the command's delay the host still polls, and nothing else has happened. -/
theorem Polling.wait {w x : Nat} {rest : List HostStmt} {s : State} (hbusy : s.busy = true)
    (hplatform : s.platform = []) (hpoll : Polling w x rest s.host) :
    ∃ h, Sys2Proof.core.run s.delay s = .next (s.afterHost s.delay h) ∧ Polling w x rest h := by
  obtain ⟨t, hrun, h, rfl, hpoll'⟩ := core_run_count (s := s) (m := s.delay)
    (P := fun j t => ∃ h, t = s.afterHost j h ∧ Polling w x rest h) ⟨s.host, rfl, hpoll⟩ (by
      rintro j _ hj ⟨h, rfl, hpoll'⟩
      obtain ⟨h', hstep, hpoll''⟩ := hpoll'.step (s := s.afterHost j h) hbusy (Nat.sub_ne_zero_of_lt hj) hplatform
      exact ⟨_, hstep, h', afterHost_afterHost s j 1 h h', hpoll''⟩)
  exact ⟨h, hrun, hpoll'⟩

/-- The step of a due command, with no RESET to come: it completes, and its input, its word and the host stay. -/
theorem step_completes {s : State} (hbusy : s.busy = true) (hdelay : s.delay = 0) (hplatform : s.platform = []) :
    ∃ t, step s = .next t ∧ t.busy = false ∧ t.done = true ∧ t.inLen = s.inLen ∧ t.inMem = s.inMem ∧
      t.cmdWord = s.cmdWord ∧ t.host = s.host ∧ t.platform = [] := by
  have hdue : s.engineDue = true := by simp [State.engineDue, hbusy, hdelay]
  obtain ⟨t, ht, hidle, hdone, -, hinLen, hinMem, hcmdWord, hhost, hplatform'⟩ := engineStep_next s.tick
  refine ⟨t, (step_of_engineDue (resetDue_of_platform_nil hplatform) hdue).trans ht, hidle, hdone, hinLen, hinMem,
    hcmdWord, hhost, ?_⟩
  rw [hplatform', tick_platform, hplatform]
  rfl

/-- Polling lasts to the completion, which keeps the input, the command word and the host. -/
theorem Polling.completes {w x : Nat} {rest : List HostStmt} {s : State} (hbusy : s.busy = true)
    (hplatform : s.platform = []) (hpoll : Polling w x rest s.host) :
    ∃ k t, Sys2Proof.core.run k s = .next t ∧ t.busy = false ∧ t.done = true ∧ t.inLen = s.inLen ∧ t.inMem = s.inMem ∧
      t.cmdWord = s.cmdWord ∧ t.platform = [] ∧ Polling w x rest t.host := by
  obtain ⟨h, hwait, hpoll'⟩ := hpoll.wait hbusy hplatform
  obtain ⟨t, hstep, hidle, hdone, hinLen, hinMem, hcmdWord, hhost, hplatform'⟩ :=
    step_completes (s := s.afterHost s.delay h) hbusy (Nat.sub_self s.delay) hplatform
  exact ⟨_, t, core_run_add hwait (core_run_one hstep), hidle, hdone, hinLen, hinMem, hcmdWord, hplatform',
    hhost ▸ hpoll'⟩

/-- From `s` the host leaves the loop of `run` for `rest`, with STATUS in its variable; nothing else happens. -/
def LeavesLoop (x : Nat) (rest : List HostStmt) (s : State) : Prop :=
  ∃ k h, Sys2Proof.core.run k s = .next (s.afterHost k h) ∧ h.value x = s.status ∧ h.program.drop h.pos = rest

theorem LeavesLoop.of_step {x : Nat} {rest : List HostStmt} {s : State} {h : HostAgent}
    (hstep : step s = .next (s.afterHost 1 h)) (hleaves : LeavesLoop x rest (s.afterHost 1 h)) :
    LeavesLoop x rest s := by
  obtain ⟨k, h', hrun, hvalue, hrest⟩ := hleaves
  refine ⟨k + 1, h', ?_, hvalue, hrest⟩
  rw [core_run_succ_of_next hstep, hrun, afterHost_afterHost, Nat.add_comm]

section IdleLoop

variable {w x : Nat} {rest : List HostStmt} {s : State} (hidle : s.busy = false) (hplatform : s.platform = [])
include hidle hplatform

theorem leavesLoop_of_bne (hpos : s.host.program.drop s.host.pos = .bne x (some .busy) 0#32 w :: rest)
    (hvalue : s.host.value x = s.status) : LeavesLoop x rest s := by
  have hequal : bneValue (s.host.value x) (some .busy) = 0#32 := by
    rw [hvalue]
    exact (bneValue_status_busy s).2 hidle
  exact ⟨1, _, core_run_one (step_afterHost_bne_eq hplatform (engineDue_of_idle hidle) hpos hequal), hvalue,
    drop_advance hpos⟩

theorem leavesLoop_of_read
    (hpos : s.host.program.drop s.host.pos = .read .reg regSTATUS 4 x :: .bne x (some .busy) 0#32 w :: rest) :
    LeavesLoop x rest s :=
  .of_step (step_afterHost_readReg hplatform (engineDue_of_idle hidle) hpos rfl)
    (leavesLoop_of_bne hidle hplatform (drop_advance hpos) (value_assign_self s.host x s.status))

theorem leavesLoop_of_label (hpos : s.host.program.drop s.host.pos = pollLoop w x ++ rest) : LeavesLoop x rest s :=
  .of_step (step_afterHost_label hplatform (engineDue_of_idle hidle) hpos)
    (leavesLoop_of_read hidle hplatform (drop_advance hpos))

/-- With the command completed, the host leaves the loop, after one more turn if it had read STATUS too early. -/
theorem Polling.leaves (hpoll : Polling w x rest s.host) : LeavesLoop x rest s := by
  obtain ⟨⟨p, hlabel, hloop⟩, hpos | hpos | ⟨hpos, hvalue⟩⟩ := hpoll
  · exact leavesLoop_of_label hidle hplatform hpos
  · exact leavesLoop_of_read hidle hplatform hpos
  · exact .of_step (step_afterHost_bne_ne hplatform (engineDue_of_idle hidle) hpos hvalue hlabel)
      (leavesLoop_of_label hidle hplatform hloop)

/-- `run`: the CMD write is accepted, the host polls until the command completes, and then leaves the loop. -/
theorem runCmd_runs {cmd : Word} (hscript : s.host.program.drop s.host.pos = runCmd cmd w x ++ rest)
    (hlabel : findLabel w s.host.program = some (s.host.pos + 1)) :
    ∃ k t, Sys2Proof.core.run k s = .next t ∧ t.busy = false ∧ t.done = true ∧ t.cmdWord = cmd ∧
      t.host.value x = t.status ∧ t.host.program.drop t.host.pos = rest ∧ t.inLen = s.inLen ∧ t.inMem = s.inMem := by
  have haccept := step_writeCmd (v := .imm cmd) hidle hplatform hscript
  have hpoll : Polling w x rest s.host.advance := ⟨⟨_, hlabel, drop_advance hscript⟩, .inl (drop_advance hscript)⟩
  obtain ⟨j, t, hwait, hbusy, hdone, hinLen, hinMem, hcmdWord, hplatform', hpoll'⟩ :=
    hpoll.completes (s := { acceptCommand cmd s with host := s.host.advance }) rfl hplatform
  obtain ⟨k, h, hleave, hvalue, hrest⟩ := hpoll'.leaves hbusy hplatform'
  have hrun := (core_run_succ_of_next haccept).trans (core_run_add hwait hleave)
  exact ⟨_, _, hrun, hbusy, hdone, hcmdWord, hvalue, hrest, hinLen, hinMem⟩

end IdleLoop

/-- Settles O60: each pseudo-operation by its run, `load_in` and `read_out` counting their bytes, `run` by its polling loop. -/
theorem pseudoOperationsRun : Obligations.PseudoOperationsRun :=
  ⟨fun _ _ _ hidle hplatform hscript hcap hcount => loadIn_runs hidle hplatform hscript hcap hcount,
    fun _ _ _ _ _ hidle hplatform hscript hlabel => runCmd_runs hidle hplatform hscript hlabel,
    fun _ _ _ _ _ hidle hplatform hscript houtLen hout hn =>
      readOut_runs hidle hplatform hscript houtLen hout hn⟩

end Sys2Proof.Machine

namespace Sys2Proof.Machine

/-! FREQ_COUNT as a function of the input's bytes (spec/41_tree_builder.md R121). -/

theorem FreqTable.ext_at {F G : FreqTable} (h : ∀ s, F.at s = G.at s) : F = G := by
  refine Vector.ext fun i hi => ?_
  simpa [FreqTable.at, Nat.mod_eq_of_lt hi] using h (BitVec.ofNat 8 i)

/-- The symbols that are absent add nothing to a sum of counters. -/
theorem sum_at_present (F : FreqTable) (l : List Byte) :
    ((l.filter (fun s => 0 < F.at s)).map F.at).sum = (l.map F.at).sum := by
  induction l with
  | nil => rfl
  | cons s l ih =>
    by_cases h : 0 < F.at s
    · simp [h, ih]
    · simp [Nat.eq_zero_of_not_pos h, ih]

theorem presentCount_freqCount (x : List Byte) : presentCount (freqCount x) = x.dedup.length :=
  (presentSymbols_perm x).length_eq

/-- Settles O35: each counter is a count, and the present symbols are the input's symbols without repetition. -/
theorem frequencyTableCounts : Obligations.FrequencyTableCounts := by
  refine ⟨freqCount_at, fun x => (sum_at_present _ _).symm.trans (presentSymbols_sum x), fun x hx => ?_, fun x y hperm => ?_⟩
  · rw [presentCount_freqCount]
    exact ⟨List.length_pos_iff.2 fun h => hx ((List.dedup_eq_nil x).1 h),
      Nat.le_min.2 ⟨length_le_of_nodup (List.nodup_dedup x), (List.dedup_sublist x).length_le⟩⟩
  · exact FreqTable.ext_at fun s => by rw [freqCount_at, freqCount_at, hperm.count_eq]

/-! The initial working list (spec/41_tree_builder.md R122). -/

theorem mem_initWork {F : FreqTable} {n : Node} :
    n ∈ initWork F ↔ ∃ s, 0 < F.at s ∧ n = .leaf s (F.at s) false := by
  simp [initWork_eq_filter, mem_allSymbols, eq_comm]

theorem initWork_symbols (F : FreqTable) :
    (initWork F).flatMap Node.symbols = allSymbols.filter (fun s => 0 < F.at s) := by
  simp [initWork_eq_filter, List.flatMap_map, Node.symbols]

theorem initWork_length (F : FreqTable) : (initWork F).length = presentCount F := by
  rw [initWork_eq_filter, List.length_map, presentCount]

/-- Settles O36: the list's symbols are a part of the ascending list of all symbols. -/
theorem initialWorkIsAscending : Obligations.InitialWorkIsAscending := by
  intro F
  refine ⟨fun n => mem_initWork, ?_, initWork_length F⟩
  rw [initWork_symbols]
  exact allSymbols_sorted.filter _

/-! The scan for the first minimum (spec/41_tree_builder.md R123). -/

/-- `A` stands at index `k` of `W`, no node of `W` has a lower frequency, and every node before it a higher one. -/
structure FirstMinAt (W : List Node) (k : Nat) (A : Node) : Prop where
  node : W[k]? = some A
  least : ∀ n ∈ W, A.freq ≤ n.freq
  first : ∀ (j : Nat) (n : Node), j < k → W[j]? = some n → A.freq < n.freq

theorem FirstMinAt.singleton (A : Node) : FirstMinAt [A] 0 A where
  node := rfl
  least _ hn := (congrArg Node.freq (List.mem_singleton.1 hn)).ge
  first j _ hj _ := absurd hj (Nat.not_lt_zero j)

/-- A node that is no lower, at the end, leaves the first minimum where it is. -/
theorem FirstMinAt.append_of_le {W : List Node} {k : Nat} {A n : Node} (h : FirstMinAt W k A) (hn : A.freq ≤ n.freq) :
    FirstMinAt (W ++ [n]) k A := by
  obtain ⟨hk, -⟩ := List.getElem?_eq_some_iff.1 h.node
  constructor
  case node => rw [List.getElem?_append_left hk, h.node]
  case least =>
    intro m hm
    rcases List.mem_append.1 hm with hm | hm
    · exact h.least m hm
    · exact List.mem_singleton.1 hm ▸ hn
  case first =>
    intro j m hj hm
    rw [List.getElem?_append_left (hj.trans hk)] at hm
    exact h.first j m hj hm

/-- A strictly lower node, at the end, is the first minimum. -/
theorem FirstMinAt.append_of_lt {W : List Node} {k : Nat} {A n : Node} (h : FirstMinAt W k A) (hn : n.freq < A.freq) :
    FirstMinAt (W ++ [n]) W.length n := by
  have hbefore : ∀ m ∈ W, n.freq < m.freq := fun m hm => hn.trans_le (h.least m hm)
  constructor
  case node => exact List.getElem?_concat_length
  case least =>
    intro m hm
    rcases List.mem_append.1 hm with hm | hm
    · exact (hbefore m hm).le
    · exact (congrArg Node.freq (List.mem_singleton.1 hm)).ge
  case first =>
    intro j m hj hm
    rw [List.getElem?_append_left hj] at hm
    exact hbefore m (List.mem_of_getElem? hm)

/-- From the first minimum of the nodes before, the scan finds the first minimum of the whole list. -/
theorem scanMin_firstMinAt {W : List Node} {k : Nat} {best : Node} (h : FirstMinAt W k best) (rest : List Node) :
    ∃ A, FirstMinAt (W ++ rest) (scanMin best k W.length rest) A := by
  induction rest generalizing W k best with
  | nil => exact ⟨best, by rwa [List.append_nil]⟩
  | cons n rest ih =>
    have hlength : W.length + 1 = (W ++ [n]).length := by rw [List.length_append, List.length_singleton]
    rw [scanMin, List.append_cons, hlength]
    split
    · next hn => exact ih (h.append_of_lt hn)
    · next hn => exact ih (h.append_of_le (Nat.le_of_not_lt hn))

/-- Settles O37: the scan starts with the first node, the first minimum of itself. -/
theorem firstMinIsLeastIndex : Obligations.FirstMinIsLeastIndex := by
  intro W hW
  obtain ⟨n, rest, rfl⟩ := List.exists_cons_of_ne_nil hW
  obtain ⟨A, hnode, hleast, hfirst⟩ := scanMin_firstMinAt (FirstMinAt.singleton n) rest
  exact ⟨A, hnode, fun _ n hn => hleast n (List.mem_of_getElem? hn), hfirst⟩

/-! One pass of the merge loop (spec/41_tree_builder.md R124, R125). -/

/-- Settles O38: each of the two selections takes the node at the first minimum of a list that is not empty. -/
theorem mergePass : Obligations.MergePass := by
  intro W hW
  have hne : W ≠ [] := List.length_pos_iff.1 (by omega)
  have hne₁ : W.eraseIdx (firstMin W) ≠ [] := by
    rw [← List.length_pos_iff, List.length_eraseIdx_of_lt (firstMin_lt hne)]
    omega
  refine ⟨_, _, List.getElem?_eq_getElem (firstMin_lt hne), List.getElem?_eq_getElem (firstMin_lt hne₁), ?_⟩
  simp only [mergeStep, takeMin_eq hne, takeMin_eq hne₁, mergeNodes]

/-! What the merge loop keeps (spec/41_tree_builder.md R126). -/

/-- A pass keeps the symbols in the list. -/
theorem mergeStep_symbols {W : List Node} (hl : 2 ≤ W.length) :
    ((mergeStep W).flatMap Node.symbols).Perm (W.flatMap Node.symbols) := by
  obtain ⟨A, B, W₂, hstep, hperm⟩ := mergeStep_eq hl
  calc
    ((mergeStep W).flatMap Node.symbols).Perm ((mergeNodes A B :: W₂).flatMap Node.symbols) :=
      hstep ▸ (List.perm_append_singleton _ _).flatMap_right _
    _ = (A :: B :: W₂).flatMap Node.symbols := by simp [mergeNodes_symbols]
    List.Perm _ (W.flatMap Node.symbols) := hperm.symm.flatMap_right _

theorem buildWork_symbols (F : FreqTable) :
    ((buildWork F).flatMap Node.symbols).Perm (allSymbols.filter (fun s => 0 < F.at s)) :=
  mergeLoop_induct (P := fun W => (W.flatMap Node.symbols).Perm (allSymbols.filter (fun s => 0 < F.at s)))
    (fun _ hl h => (mergeStep_symbols hl).trans h) _ _ (.of_eq (initWork_symbols F))

/-- What the Leaves of R122 satisfy, and a merge hands on, every node in the list the loop leaves satisfies. -/
theorem buildWork_forall {P : Node → Prop} {F : FreqTable} (leaf : ∀ s, P (.leaf s (F.at s) false))
    (merge : ∀ A B, P A → P B → P (mergeNodes A B)) : ∀ t ∈ buildWork F, P t := by
  refine mergeLoop_induct (P := fun W => ∀ t ∈ W, P t) (fun W hl h => ?_) _ _ fun t ht => ?_
  · obtain ⟨A, B, W₂, hstep, hperm⟩ := mergeStep_eq hl
    have hold : ∀ t ∈ A :: B :: W₂, P t := fun t ht => h t (hperm.mem_iff.2 ht)
    rw [hstep]
    intro t ht
    rcases List.mem_append.1 ht with ht | ht
    · exact hold t (by simp [ht])
    · exact List.mem_singleton.1 ht ▸ merge A B (hold A (by simp)) (hold B (by simp))
  · obtain ⟨s, -, rfl⟩ := mem_initWork.1 ht
    exact leaf s

@[simp] theorem setSide_weighs (F : FreqTable) (b : Bit) (n : Node) : (n.setSide b).weighs F ↔ n.weighs F := by
  cases n <;> rfl

theorem mergeNodes_weighs {F : FreqTable} {A B : Node} (hA : A.weighs F) (hB : B.weighs F) :
    (mergeNodes A B).weighs F := by
  simp [mergeNodes, Node.weighs, hA, hB]

theorem mergeNodes_sidesOk {A B : Node} (hA : A.sidesOk = true) (hB : B.sidesOk = true) :
    (mergeNodes A B).sidesOk = true := by
  simp [mergeNodes, Node.sidesOk, hA, hB]

/-- A tree that weighs what stands below it weighs the sum of its symbols' counters. -/
theorem freq_of_weighs {F : FreqTable} {t : Node} (h : t.weighs F) : t.freq = (t.symbols.map F.at).sum := by
  induction t with
  | leaf s f b => simpa [Node.freq, Node.symbols, Node.weighs] using h
  | internal c0 c1 f b ih0 ih1 =>
    obtain ⟨hf, h0, h1⟩ := h
    rw [Node.symbols, List.map_append, List.sum_append, ← ih0 h0, ← ih1 h1]
    exact hf

/-- Settles O39: the loop keeps the symbols and the sides and weights of R125; the tree's sizes follow from its leaves. -/
theorem builtTreeShape : Obligations.BuiltTreeShape := by
  intro x hx
  obtain ⟨s, hs⟩ := List.exists_mem_of_ne_nil x hx
  obtain ⟨t, hwork, htree⟩ := buildTree_of_present (freqCount_at_pos hs)
  have ht : t ∈ buildWork (freqCount x) := hwork ▸ List.mem_singleton_self t
  have hpresent : t.symbols.Perm (allSymbols.filter (fun s => 0 < (freqCount x).at s)) := by
    simpa [hwork] using buildWork_symbols (freqCount x)
  have hinput : t.symbols.Perm x.dedup := hpresent.trans (presentSymbols_perm x)
  have hnodup : t.symbols.Nodup := hinput.nodup_iff.2 (List.nodup_dedup x)
  have hleaves : t.symbols.length = presentCount (freqCount x) := hpresent.length_eq
  have hmost := length_le_of_nodup hnodup
  have hinternals := internals_add_one t
  have hdepth := depth_le_internals t
  have hweighs : t.weighs (freqCount x) := buildWork_forall (fun _ => rfl) (fun _ _ => mergeNodes_weighs) t ht
  have hfreq : t.freq = x.length := by
    rw [freq_of_weighs hweighs, (hpresent.map _).sum_eq, presentSymbols_sum]
  have hsides : ∀ t ∈ buildWork (freqCount x), t.sidesOk = true :=
    buildWork_forall (fun _ => rfl) fun _ _ => mergeNodes_sidesOk
  have hroot : ∀ t ∈ buildWork (freqCount x), t.side = false := buildWork_forall (fun _ => rfl) fun _ _ _ _ => rfl
  exact ⟨t, htree, hnodup, fun s => hinput.mem_iff.trans List.mem_dedup, hleaves, by omega, by omega, by omega, hfreq,
    hweighs, hsides t ht, hroot t ht⟩

end Sys2Proof.Machine

namespace Sys2Proof.Machine

/-! Codewords as paths (spec/42_codeword.md R140, R143 to R145). -/

/-- The sides on the way from below `t` to the first leaf of symbol `s`, for a symbol that `t` has. -/
def Node.pathTo : Node → Byte → List Bit
  | .leaf _ _ _, _ => []
  | .internal c0 c1 _ _, s => if s ∈ c0.symbols then c0.side :: c0.pathTo s else c1.side :: c1.pathTo s

theorem pathTo_of_mem_c0 {c0 c1 : Node} {f : Nat} {b : Bit} {s : Byte} (h : s ∈ c0.symbols) :
    (Node.internal c0 c1 f b).pathTo s = c0.side :: c0.pathTo s := if_pos h

theorem pathTo_of_not_mem_c0 {c0 c1 : Node} {f : Nat} {b : Bit} {s : Byte} (h : s ∉ c0.symbols) :
    (Node.internal c0 c1 f b).pathTo s = c1.side :: c1.pathTo s := if_neg h

/-- The walk writes only the entries of its leaves. -/
theorem walkCodes_at_of_not_mem {n : Node} {s : Byte} (h : s ∉ n.symbols) (p : List Bit) (T : CodeTable) :
    (walkCodes n p T).at s = T.at s := by
  induction n generalizing p T with
  | leaf sym f b =>
    rw [walkCodes, at_put, if_neg (Ne.symm (List.ne_of_not_mem_cons h))]
  | internal c0 c1 f b ih0 ih1 =>
    rw [Node.symbols, List.mem_append, not_or] at h
    rw [walkCodes, ih1 h.2, ih0 h.1]

/-- With distinct leaf symbols no entry is written twice: a leaf's entry is the path to it, behind `p`. -/
theorem walkCodes_at_of_mem {n : Node} {s : Byte} (hnodup : n.symbols.Nodup) (h : s ∈ n.symbols) (p : List Bit)
    (T : CodeTable) : (walkCodes n p T).at s = some (p ++ n.pathTo s) := by
  induction n generalizing p T with
  | leaf sym f b =>
    obtain rfl := List.mem_singleton.1 h
    rw [walkCodes, at_put, if_pos rfl, Node.pathTo, List.append_nil]
  | internal c0 c1 f b ih0 ih1 =>
    obtain ⟨hnodup0, hnodup1, hdisjoint⟩ := List.nodup_append'.1 hnodup
    rw [walkCodes]
    by_cases h0 : s ∈ c0.symbols
    · rw [walkCodes_at_of_not_mem (hdisjoint h0), ih0 hnodup0 h0, pathTo_of_mem_c0 h0, ← List.append_cons]
    · have h1 : s ∈ c1.symbols := (List.mem_append.1 h).resolve_left h0
      rw [ih1 hnodup1 h1, pathTo_of_not_mem_c0 h0, ← List.append_cons]

/-- Under an Internal root the codeword of a leaf is the path to it. -/
theorem deriveCodes_at_of_mem {t : Node} {s : Byte} (hnodup : t.symbols.Nodup) (htwo : 2 ≤ t.symbols.length)
    (h : s ∈ t.symbols) : (deriveCodes t).at s = some (t.pathTo s) := by
  cases t with
  | leaf sym f b => exact absurd htwo (by simp [Node.symbols])
  | internal c0 c1 f b => exact walkCodes_at_of_mem hnodup h [] CodeTable.empty

theorem mem_symbols_of_code {t : Node} {s : Byte} {c : List Bit} (h : (deriveCodes t).at s = some c) : s ∈ t.symbols :=
  (deriveCodes_isSome t s).1 (Option.isSome_of_mem h)

/-- No leaf lies on the path to another: where the paths part, one takes side 1 and the other side 0 (R125). -/
theorem eq_of_pathTo_prefix {t : Node} {s s' : Byte} (hsides : t.sidesOk = true) (hs : s ∈ t.symbols)
    (hs' : s' ∈ t.symbols) (h : t.pathTo s <+: t.pathTo s') : s = s' := by
  induction t with
  | leaf sym f b => exact (List.mem_singleton.1 hs).trans (List.mem_singleton.1 hs').symm
  | internal c0 c1 f b ih0 ih1 =>
    simp only [Node.sidesOk, Bool.and_eq_true, Bool.not_eq_true'] at hsides
    obtain ⟨⟨⟨hside0, hside1⟩, hsides0⟩, hsides1⟩ := hsides
    have hpart : c0.side ≠ c1.side := by rw [hside0, hside1]; decide
    by_cases h0 : s ∈ c0.symbols
    · rw [pathTo_of_mem_c0 h0] at h
      by_cases h0' : s' ∈ c0.symbols
      · rw [pathTo_of_mem_c0 h0', List.cons_prefix_cons] at h
        exact ih0 hsides0 h0 h0' h.2
      · rw [pathTo_of_not_mem_c0 h0', List.cons_prefix_cons] at h
        exact absurd h.1 hpart
    · rw [pathTo_of_not_mem_c0 h0] at h
      by_cases h0' : s' ∈ c0.symbols
      · rw [pathTo_of_mem_c0 h0', List.cons_prefix_cons] at h
        exact absurd h.1.symm hpart
      · rw [pathTo_of_not_mem_c0 h0', List.cons_prefix_cons] at h
        exact ih1 hsides1 ((List.mem_append.1 hs).resolve_left h0) ((List.mem_append.1 hs').resolve_left h0') h.2

/-- Settles O41: two symbols need two leaves, and then the codewords are the paths. -/
theorem codewordsArePrefixFree : Obligations.CodewordsArePrefixFree := by
  intro t s s' c c' hnodup hsides hne hc hc' hprefix
  have hs := mem_symbols_of_code hc
  have hs' := mem_symbols_of_code hc'
  have htwo : 2 ≤ t.symbols.length := by
    have hsub : [s, s'] ⊆ t.symbols := by simp [hs, hs']
    exact (List.subperm_of_subset (by simp [hne]) hsub).length_le
  obtain rfl := Option.some.inj (hc.symm.trans (deriveCodes_at_of_mem hnodup htwo hs))
  obtain rfl := Option.some.inj (hc'.symm.trans (deriveCodes_at_of_mem hnodup htwo hs'))
  exact hne (eq_of_pathTo_prefix hsides hs hs' hprefix)

/-- Settles O42: a codeword is no longer than the tree is deep, and n leaves give at most n − 1 levels. -/
theorem codewordLengths : Obligations.CodewordLengths := by
  intro t s c hnodup hc
  obtain ⟨hpos, hle⟩ := deriveCodes_length hc
  have hdepth := depth_le_internals t
  have hinternals := internals_add_one t
  have hmost := length_le_of_nodup hnodup
  refine ⟨fun htwo => ⟨hpos, ?_⟩, fun hone => ?_, hpos, ?_⟩ <;> omega

/-- The paths to the leaves of a tree fill the code space of any `d` bits that hold them (R144). -/
theorem sum_two_pow_sub_pathTo {t : Node} (hnodup : t.symbols.Nodup) {d : Nat} (hd : t.depth ≤ d) :
    (t.symbols.map fun s => 2 ^ (d - (t.pathTo s).length)).sum = 2 ^ d := by
  induction t generalizing d with
  | leaf sym f b => rfl
  | internal c0 c1 f b ih0 ih1 =>
    obtain ⟨hnodup0, hnodup1, hdisjoint⟩ := List.nodup_append'.1 hnodup
    obtain ⟨e, rfl⟩ : ∃ e, d = e + 1 := Nat.exists_eq_add_one.2 (Nat.zero_lt_of_lt hd)
    obtain ⟨he0, he1⟩ := Nat.max_le.1 (Nat.le_of_succ_le_succ hd)
    have hc0 : ∀ s ∈ c0.symbols, 2 ^ (e + 1 - ((Node.internal c0 c1 f b).pathTo s).length) =
        2 ^ (e - (c0.pathTo s).length) := fun s hs => by
      rw [pathTo_of_mem_c0 hs, List.length_cons, Nat.add_sub_add_right]
    have hc1 : ∀ s ∈ c1.symbols, 2 ^ (e + 1 - ((Node.internal c0 c1 f b).pathTo s).length) =
        2 ^ (e - (c1.pathTo s).length) := fun s hs => by
      rw [pathTo_of_not_mem_c0 fun h0 => hdisjoint h0 hs, List.length_cons, Nat.add_sub_add_right]
    rw [Node.symbols, List.map_append, List.sum_append, List.map_congr_left hc0, List.map_congr_left hc1,
      ih0 hnodup0 he0, ih1 hnodup1 he1, Nat.pow_succ, Nat.mul_two]

/-- Settles O43: with two leaves or more each term is the one of the path, and the tree's depth holds every path. -/
theorem codewordsAreComplete : Obligations.CodewordsAreComplete := by
  intro t hnodup htwo
  have hpath : ∀ s ∈ t.symbols, 2 ^ (t.depth - (((deriveCodes t).at s).getD []).length) =
      2 ^ (t.depth - (t.pathTo s).length) := fun s hs => by
    rw [deriveCodes_at_of_mem hnodup htwo hs, Option.getD_some]
  rw [List.map_congr_left hpath]
  exact sum_two_pow_sub_pathTo hnodup (Nat.le_refl _)

end Sys2Proof.Machine

namespace Sys2Proof.Machine

/-! SERIALIZE_TREE (spec/43_tree_serdes.md R160, R162). -/

/-- A Leaf takes nine bits and an Internal node one, and there is one Internal node fewer than Leaves. -/
theorem serializeTree_length_add_one (t : Node) : (serializeTree t).length + 1 = 10 * t.symbols.length := by
  induction t with
  | leaf s f b => rfl
  | internal c0 c1 f b ih0 ih1 =>
    simp only [serializeTree, Node.symbols, List.length_cons, List.length_append]
    omega

/-- Settles O44: the length follows from the leaves, and distinct symbols give at most 256 of them. -/
theorem treeFieldLength : Obligations.TreeFieldLength := by
  intro t
  have hlength := serializeTree_length_add_one t
  refine ⟨by omega, fun hnodup => ?_⟩
  have hleaves := length_le_of_nodup hnodup
  omega

/-! One node of the parser, case by case (spec/43_tree_serdes.md R165, R166). -/

theorem readSymbol_of_length_lt {bs : List Bit} (h : bs.length < 8) : readSymbol bs = .error .truncatedStream := by
  unfold readSymbol
  split
  · simp only [List.length_cons] at h
    omega
  · rfl

theorem parseNode_nil (fuel : Nat) (alpha : List Byte) (nInt : Nat) :
    parseNode (fuel + 1) ⟨[], alpha, nInt⟩ = .error .truncatedStream := rfl

theorem parseNode_leaf_short {r : List Bit} (h : r.length < 8) (fuel : Nat) (alpha : List Byte) (nInt : Nat) :
    parseNode (fuel + 1) ⟨true :: r, alpha, nInt⟩ = .error .truncatedStream := by
  simp only [parseNode, parseLeaf, readSymbol_of_length_lt h]

theorem parseNode_leaf_repeated {alpha : List Byte} {s : Byte} (h : s ∈ alpha) (fuel : Nat) (r : List Bit) (nInt : Nat) :
    parseNode (fuel + 1) ⟨true :: (bits8 s ++ r), alpha, nInt⟩ = .error .malformedTree := by
  simp only [parseNode, parseLeaf, readSymbol_bits8, List.contains_iff_mem, if_pos h]

theorem parseNode_leaf_new {alpha : List Byte} {s : Byte} (h : s ∉ alpha) (fuel : Nat) (r : List Bit) (nInt : Nat) :
    parseNode (fuel + 1) ⟨true :: (bits8 s ++ r), alpha, nInt⟩ = .ok (.leaf s 0 false, ⟨r, alpha ++ [s], nInt⟩) := by
  simp only [parseNode, parseLeaf, readSymbol_bits8, List.contains_iff_mem, if_neg h]

theorem parseNode_internal_full (fuel : Nat) (r : List Bit) (alpha : List Byte) :
    parseNode (fuel + 1) ⟨false :: r, alpha, Config.maxInternal⟩ = .error .malformedTree := by
  simp only [parseNode, if_true]

theorem parseNode_internal {fuel nInt : Nat} {r : List Bit} {alpha : List Byte} {c0 c1 : Node} {st₀ st₁ : ParseState}
    (hn : nInt ≠ Config.maxInternal) (h0 : parseNode fuel ⟨r, alpha, nInt + 1⟩ = .ok (c0, st₀))
    (h1 : parseNode fuel st₀ = .ok (c1, st₁)) :
    parseNode (fuel + 1) ⟨false :: r, alpha, nInt⟩ =
      .ok (.internal (c0.setSide true) (c1.setSide false) 0 false, st₁) := by
  simp only [parseNode, if_neg hn, h0, h1]

/-- Settles O47: the failing cases of one node. -/
theorem parserErrors : Obligations.ParserErrors := by
  intro fuel alpha nInt
  refine ⟨parseNode_nil fuel alpha nInt, fun r hr => parseNode_leaf_short hr fuel alpha nInt,
    fun s r hs => parseNode_leaf_repeated hs fuel r nInt, fun r hn => ?_⟩
  subst hn
  exact parseNode_internal_full fuel r alpha

/-! A parsed tree is the one whose serialization was read (spec/43_tree_serdes.md R167, R168). -/

/-- The bits a node took are its serialization, and it has the sides of R125 below a side 0. -/
theorem parseNode_reads {fuel : Nat} {st st' : ParseState} {n : Node} (h : parseNode fuel st = .ok (n, st')) :
    st.rest = serializeTree n ++ st'.rest ∧ n.sidesOk = true ∧ n.side = false := by
  induction fuel generalizing st st' n with
  | zero => exact nomatch h
  | succ fuel ih =>
    rcases parseNode_cases h with ⟨rest, hrest, hleaf⟩ | ⟨rest, c0, st₀, c1, hrest, -, h0, h1, rfl⟩
    · obtain ⟨s, rfl, hbits, -⟩ := parseLeaf_rest hleaf
      refine ⟨?_, rfl, rfl⟩
      rw [hrest, serializeTree, List.cons_append]
      exact congrArg (true :: ·) hbits
    · obtain ⟨hbits0, hsides0, -⟩ := ih h0
      obtain ⟨hbits1, hsides1, -⟩ := ih h1
      have hbits : rest = serializeTree c0 ++ (serializeTree c1 ++ st'.rest) := hbits1 ▸ hbits0
      refine ⟨?_, by simp [Node.sidesOk, hsides0, hsides1], rfl⟩
      simp [hrest, hbits, serializeTree]

/-- A parsed tree's serialization is the part of the content that was consumed. -/
theorem deserializeTree_reads {C : List Bit} {p : ParsedTree} (h : deserializeTree C = .ok p) :
    p.used = (serializeTree p.root).length ∧ C.take p.used = serializeTree p.root ∧
    p.root.sidesOk = true ∧ p.root.side = false := by
  unfold deserializeTree at h
  split at h
  · exact nomatch h
  · next root st hparse =>
    obtain rfl := Except.ok.inj h
    obtain ⟨hbits, hsides, hside⟩ := parseNode_reads hparse
    obtain rfl : C = serializeTree root ++ st.rest := hbits
    have hused : (serializeTree root ++ st.rest).length - st.rest.length = (serializeTree root).length := by simp
    exact ⟨hused, by simp only [hused, List.take_left], hsides, hside⟩

/-- Settles O46: distinct symbols bound the leaves and these the other nodes; the serialization read gives k and the sides. -/
theorem parsedTreeIsBounded : Obligations.ParsedTreeIsBounded := by
  intro C p h
  obtain ⟨halpha, hnodup, hfreq⟩ := deserializeTree_ok h
  obtain ⟨hused, htake, hsides, hside⟩ := deserializeTree_reads h
  have hleaves := length_le_of_nodup hnodup
  have hinternals := internals_add_one p.root
  have hcount := count_eq p.root
  have hdepth := depth_le_internals p.root
  have hlength := serializeTree_length_add_one p.root
  exact ⟨hnodup, hleaves, by omega, by omega, by omega, halpha, by omega, htake, hfreq _ rfl, hsides, hside⟩

/-! The round trip of a tree (spec/43_tree_serdes.md R170). -/

@[simp] theorem setSide_internal (b : Bit) (c0 c1 : Node) (f : Nat) (d : Bit) :
    (Node.internal c0 c1 f d).setSide b = .internal c0 c1 f b := rfl

@[simp] theorem setSide_setSide (b b' : Bit) (n : Node) : (n.setSide b).setSide b' = n.setSide b' := by cases n <;> rfl

theorem setSide_of_side {b : Bit} {n : Node} (h : n.side = b) : n.setSide b = n := by
  subst h
  cases n <;> rfl

@[simp] theorem eraseFreq_side (n : Node) : n.eraseFreq.side = n.side := by cases n <;> rfl

theorem sidesOk_internal {c0 c1 : Node} {f : Nat} {b : Bit} (h : (Node.internal c0 c1 f b).sidesOk = true) :
    c0.side = true ∧ c1.side = false ∧ c0.sidesOk = true ∧ c1.sidesOk = true := by
  simpa [Node.sidesOk, and_assoc] using h

/-- A serialized node is read back, with frequencies 0 and side 0, when its symbols are new and distinct, its Internal nodes
within the bound of R166 (b), and the fuel above its depth. -/
theorem parseNode_serializeTree {t : Node} {fuel nInt : Nat} {alpha : List Byte} (hfuel : t.depth < fuel)
    (hsides : t.sidesOk = true) (hnodup : (alpha ++ t.symbols).Nodup) (hnInt : nInt + t.internals ≤ Config.maxInternal)
    (r : List Bit) :
    parseNode fuel ⟨serializeTree t ++ r, alpha, nInt⟩ =
      .ok (t.eraseFreq.setSide false, ⟨r, alpha ++ t.symbols, nInt + t.internals⟩) := by
  obtain ⟨fuel, rfl⟩ := Nat.exists_eq_add_one.2 (Nat.zero_lt_of_lt hfuel)
  induction t generalizing fuel nInt alpha r with
  | leaf s f b =>
    have hnew : s ∉ alpha := fun hs => List.disjoint_of_nodup_append hnodup hs (List.mem_singleton_self s)
    exact parseNode_leaf_new hnew fuel r nInt
  | internal c0 c1 f b ih0 ih1 =>
    obtain ⟨hside0, hside1, hsides0, hsides1⟩ := sidesOk_internal hsides
    obtain ⟨hfuel0, hfuel1⟩ : c0.depth < fuel ∧ c1.depth < fuel := by simp only [Node.depth] at hfuel; omega
    obtain ⟨fuel, rfl⟩ := Nat.exists_eq_add_one.2 (Nat.zero_lt_of_lt hfuel0)
    have hnInt' : nInt + (c0.internals + c1.internals + 1) ≤ Config.maxInternal := hnInt
    rw [Node.symbols, ← List.append_assoc] at hnodup
    have h0 := ih0 (nInt := nInt + 1) hsides0 hnodup.of_append_left (by omega) (serializeTree c1 ++ r) fuel hfuel0
    have h1 := ih1 (nInt := nInt + 1 + c0.internals) hsides1 hnodup (by omega) r fuel hfuel1
    have hparse := parseNode_internal (by omega) h0 h1
    have hcount : nInt + 1 + c0.internals + c1.internals = nInt + (c0.internals + c1.internals + 1) := by omega
    simpa [serializeTree, Node.symbols, Node.internals, Node.eraseFreq, setSide_of_side, hside0, hside1, hcount] using hparse

/-- The whole serialization of a tree of distinct symbols, with whatever follows it. -/
theorem deserializeTree_serializeTree {t : Node} (hsides : t.sidesOk = true) (hside : t.side = false)
    (hnodup : t.symbols.Nodup) (r : List Bit) :
    deserializeTree (serializeTree t ++ r) =
      .ok { root := t.eraseFreq, used := 10 * t.symbols.length - 1, alpha := t.symbols } := by
  have hlength := serializeTree_length_add_one t
  have hleaves := length_le_of_nodup hnodup
  have hinternals := internals_add_one t
  have hdepth := depth_le_internals t
  have hfuel : t.depth < (serializeTree t ++ r).length + 1 := by rw [List.length_append]; omega
  have hnInt : 0 + t.internals ≤ Config.maxInternal := by simp only [Config.maxInternal]; omega
  have hused : (serializeTree t ++ r).length - r.length = 10 * t.symbols.length - 1 := by
    rw [List.length_append]
    omega
  have hparse := parseNode_serializeTree (alpha := []) hfuel hsides hnodup hnInt r
  simp only [deserializeTree, hparse, hused, List.nil_append, setSide_of_side ((eraseFreq_side t).trans hside)]

theorem walkCodes_eraseFreq (n : Node) (p : List Bit) (T : CodeTable) : walkCodes n.eraseFreq p T = walkCodes n p T := by
  induction n generalizing p T with
  | leaf s f b => rfl
  | internal c0 c1 f b ih0 ih1 => simp only [Node.eraseFreq, walkCodes, eraseFreq_side, ih0, ih1]

/-- DERIVE_CODES looks at symbols and sides only (42_codeword.md R140). -/
theorem deriveCodes_eraseFreq (t : Node) : deriveCodes t.eraseFreq = deriveCodes t := by
  cases t with
  | leaf s f b => rfl
  | internal c0 c1 f b => exact walkCodes_eraseFreq (.internal c0 c1 f b) [] CodeTable.empty

/-- The empty input has no tree (41_tree_builder.md R120). -/
theorem ne_nil_of_buildTree {x : List Byte} {t : Node} (h : buildTree (freqCount x) = some t) : x ≠ [] := by
  rintro rfl
  have hwork : initWork (freqCount []) = [] := by simp [initWork_eq_filter, freqCount]
  simp [buildTree, buildWork, hwork, mergeLoop] at h

/-- Settles O45: a built tree has distinct symbols and the sides of R125, so its serialization is read back. -/
theorem treeRoundTrip : Obligations.TreeRoundTrip := by
  intro x t r h
  obtain ⟨t', ht', hnodup, -, -, -, -, -, -, -, hsides, hside⟩ := builtTreeShape x (ne_nil_of_buildTree h)
  obtain rfl := Option.some.inj (h.symm.trans ht')
  exact ⟨deserializeTree_serializeTree hsides hside hnodup r, deriveCodes_eraseFreq t⟩

end Sys2Proof.Machine

namespace Sys2Proof.Machine

/-! Packed units and their contents (spec/44_bitstream.md R183 to R186). -/

theorem bytesToBits_pack (C : List Bit) : bytesToBits (pack C) = unitBits C :=
  packedUnitLayout C

theorem bytesToBits_injective : Function.Injective bytesToBits :=
  Function.LeftInverse.injective bitsToBytes_bytesToBits

theorem pack_length (C : List Bit) : (pack C).length = (3 + C.length + 7) / 8 := by
  have h : 8 * (pack C).length = 8 * ((3 + C.length + 7) / 8) := by
    rw [← bytesToBits_length, bytesToBits_pack, unitBits_length]
  omega

/-- Settles O49: the packed bits are whole bytes, and the padding is what the last byte has beyond header and content. -/
theorem packLength : Obligations.PackLength := by
  intro C
  rw [pack_length]
  refine ⟨rfl, ?_, ?_⟩ <;> omega

/-- The padding of R184 is the padding of R183. -/
theorem paddingOf_eq {u : Nat} (hu : u < 8) : paddingOf u = (8 - u) % 8 := by
  unfold paddingOf
  split <;> omega

/-- Only a header of 1 or 2 names more padding than a byte has room for behind its header. -/
theorem five_lt_paddingOf_iff (u : Nat) : 5 < paddingOf u ↔ u = 1 ∨ u = 2 := by
  unfold paddingOf
  split <;> omega

/-- A byte begins with its top three bits. -/
theorem bits8_eq_bits3_append (b : Byte) : bits8 b = bits3 (b.extractLsb' 5 3).toNat ++ (bits8 b).drop 3 := by
  simp only [bits8, bits3, BitVec.testBit_toNat, BitVec.getLsbD_extractLsb']
  rfl

/-- A non-empty string begins with the header of its first byte. -/
theorem bytesToBits_cons_header (b : Byte) (x : List Byte) :
    bytesToBits (b :: x) = bits3 (b.extractLsb' 5 3).toNat ++ ((bits8 b).drop 3 ++ bytesToBits x) := by
  rw [← List.append_assoc, ← bits8_eq_bits3_append, bytesToBits_cons]

@[simp] theorem unpack_nil : unpack [] = .error .truncatedStream := rfl

/-- UNPACK on the bits behind the header: it fails when they do not hold the padding, and else leaves the padding out. -/
theorem unpack_of_header {x : List Byte} {u : Nat} {R : List Bit} (hu : u < 8) (hx : bytesToBits x = bits3 u ++ R) :
    unpack x = if R.length < paddingOf u then .error .truncatedStream else .ok (R.take (R.length - paddingOf u)) := by
  have hlength : 8 * x.length = 3 + R.length := by
    rw [← bytesToBits_length, hx, List.length_append, bits3_length]
  have hne : x ≠ [] := List.ne_nil_of_length_pos (by omega)
  have hheader : bitsVal ((bytesToBits x).take Config.headerWidth) = u := by
    rw [hx, List.take_left' (show (bits3 u).length = Config.headerWidth from rfl), bitsVal_bits3 hu]
  simp only [unpack, if_neg hne, hheader, hlength]
  rw [Config.headerWidth]
  by_cases hshort : R.length < paddingOf u
  · rw [if_pos (by omega), if_pos hshort]
  · have htake : 3 + R.length - paddingOf u = (bits3 u).length + (R.length - paddingOf u) := by
      rw [bits3_length]
      omega
    rw [if_neg (by omega), if_neg hshort, hx, htake, List.take_length_add_append, List.drop_left' (bits3_length u)]

/-- UNPACK answers a content exactly when the string is its unit up to the values of the padding bits (R184). -/
theorem unpack_eq_ok_iff {x : List Byte} {C : List Bit} :
    unpack x = .ok C ↔ ∃ pad, bytesToBits x = bits3 ((3 + C.length) % 8) ++ C ++ pad ∧
      pad.length = (8 - (3 + C.length) % 8) % 8 := by
  constructor
  · intro h
    cases x with
    | nil => simp at h
    | cons b x =>
      have hx := bytesToBits_cons_header b x
      have hu := (b.extractLsb' 5 3).isLt
      generalize (b.extractLsb' 5 3).toNat = u at hx hu
      generalize (bits8 b).drop 3 ++ bytesToBits x = R at hx
      have hlength : 8 * (b :: x).length = 3 + R.length := by
        rw [← bytesToBits_length, hx, List.length_append, bits3_length]
      rw [unpack_of_header hu hx, paddingOf_eq hu] at h
      split at h
      · cases h
      next hlong =>
        obtain rfl := Except.ok.inj h
        have hcontent : (R.take (R.length - (8 - u) % 8)).length = R.length - (8 - u) % 8 := by
          rw [List.length_take]
          omega
        have hheader : (3 + (R.length - (8 - u) % 8)) % 8 = u := by omega
        refine ⟨R.drop (R.length - (8 - u) % 8), ?_, ?_⟩
        · rw [hcontent, hheader, List.append_assoc, List.take_append_drop, hx]
        · rw [hcontent, hheader, List.length_drop]
          omega
  · rintro ⟨pad, hx, hpad⟩
    have hu : (3 + C.length) % 8 < 8 := Nat.mod_lt _ (by decide)
    have htake : (C ++ pad).length - pad.length = C.length := by
      rw [List.length_append]
      omega
    rw [List.append_assoc] at hx
    rw [unpack_of_header hu hx, paddingOf_eq hu, ← hpad, if_neg (by rw [List.length_append]; omega), htake,
      List.take_left]

/-- Settles O50: a packed unit is its content's unit, with padding bits 0. -/
theorem unpackAfterPack : Obligations.UnpackAfterPack := by
  intro C
  exact unpack_eq_ok_iff.2 ⟨_, bytesToBits_pack C, List.length_replicate⟩

/-- Settles O51: the two units agree on header and content, so they are equal exactly when their padding is. -/
theorem packAfterUnpack : Obligations.PackAfterUnpack := by
  intro x C h
  obtain ⟨pad, hx, hpad⟩ := unpack_eq_ok_iff.1 h
  have hdrop : (bytesToBits x).drop (3 + C.length) = pad := by
    rw [hx]
    exact List.drop_left' (by rw [List.length_append, bits3_length])
  rw [hdrop, ← bytesToBits_injective.eq_iff, bytesToBits_pack, hx, unitBits, List.append_cancel_left_eq, eq_comm,
    List.eq_replicate_iff]
  exact and_iff_right hpad

theorem unpack_error_eq {x : List Byte} {e : ErrCode} (h : unpack x = .error e) : e = .truncatedStream := by
  cases x with
  | nil => exact (Except.error.inj h).symm
  | cons b x =>
    rw [unpack_of_header (b.extractLsb' 5 3).isLt (bytesToBits_cons_header b x)] at h
    split at h
    · exact (Except.error.inj h).symm
    · cases h

/-- A non-empty string is too short exactly when it is one byte with header 1 or 2. -/
theorem unpack_cons_eq_error_iff (b : Byte) (x : List Byte) :
    unpack (b :: x) = .error .truncatedStream ↔
      x = [] ∧ (b.extractLsb' 5 3 = 1#3 ∨ b.extractLsb' 5 3 = 2#3) := by
  have hheader : b.extractLsb' 5 3 = 1#3 ∨ b.extractLsb' 5 3 = 2#3 ↔ 5 < paddingOf (b.extractLsb' 5 3).toNat := by
    rw [five_lt_paddingOf_iff, ← BitVec.toNat_inj, ← BitVec.toNat_inj]
    rfl
  have hpadding : paddingOf (b.extractLsb' 5 3).toNat < 8 := by
    rw [paddingOf_eq (b.extractLsb' 5 3).isLt]
    exact Nat.mod_lt _ (by decide)
  have hlength : ((bits8 b).drop 3 ++ bytesToBits x).length = 5 + 8 * x.length := by
    rw [List.length_append, List.length_drop, bits8_length, bytesToBits_length]
  have hshort : 5 + 8 * x.length < paddingOf (b.extractLsb' 5 3).toNat ↔
      x.length = 0 ∧ 5 < paddingOf (b.extractLsb' 5 3).toNat := by omega
  rw [unpack_of_header (b.extractLsb' 5 3).isLt (bytesToBits_cons_header b x), hlength, hheader,
    ← List.length_eq_zero_iff, ← hshort]
  simp

/-- Settles O52: the padding is at most 7 bits, so only one byte can be too short for its header. -/
theorem unpackFailsExactlyWhenTooShort : Obligations.UnpackFailsExactlyWhenTooShort := by
  intro x
  refine ⟨?_, fun e => unpack_error_eq⟩
  have herror : (∃ e, unpack x = .error e) ↔ unpack x = .error .truncatedStream :=
    ⟨fun ⟨e, h⟩ => unpack_error_eq h ▸ h, fun h => ⟨_, h⟩⟩
  rw [herror]
  cases x with
  | nil => exact iff_of_true unpack_nil (.inl rfl)
  | cons b x =>
    rw [unpack_cons_eq_error_iff]
    constructor
    · rintro ⟨rfl, hheader⟩
      exact .inr ⟨b, rfl, hheader⟩
    · rintro (hnil | ⟨b', hcons, hheader⟩)
      · cases hnil
      · obtain ⟨rfl, rfl⟩ := List.cons.inj hcons
        exact ⟨rfl, hheader⟩

end Sys2Proof.Machine

namespace Sys2Proof.Machine

/-! The payload of an input, bit by bit (spec/45_payload.md R200, R201). -/

/-- The tree built from an input has distinct leaves, the sides of R125, and a codeword for every byte of the input (R200). -/
theorem codes_of_buildTree {x : List Byte} {t : Node} (h : buildTree (freqCount x) = some t) :
    t.symbols.Nodup ∧ t.sidesOk = true ∧ ∀ b ∈ x, ∃ c, (deriveCodes t).at b = some c := by
  obtain ⟨t', ht', hnodup, hmem, -, -, -, -, -, -, hsides, -⟩ := builtTreeShape x (ne_nil_of_buildTree h)
  obtain rfl := Option.some.inj (h.symm.trans ht')
  exact ⟨hnodup, hsides, fun b hb => Option.isSome_iff_exists.1 ((deriveCodes_isSome t b).2 ((hmem b).2 hb))⟩

theorem payloadEncode_cons {T : CodeTable} {b : Byte} {c : List Bit} (h : T.at b = some c) (x : List Byte) :
    payloadEncode T (b :: x) = c ++ payloadEncode T x := by
  rw [payloadEncode, List.flatMap_cons, h]
  rfl

theorem payloadEncode_length (T : CodeTable) (x : List Byte) :
    (payloadEncode T x).length = (x.map fun b => ((T.at b).getD []).length).sum :=
  List.length_flatMap

/-- A sum over the bytes of an input, by symbols: each symbol's summand as often as the symbol occurs. -/
theorem sum_map_eq_sum_allSymbols (f : Byte → Nat) (x : List Byte) :
    (x.map f).sum = (allSymbols.map fun s => x.count s * f s).sum := by
  calc
    (x.map f).sum = ∑ s ∈ x.toFinset, x.count s * f s := Finset.sum_list_map_count x f
    _ = ∑ s ∈ allSymbols.toFinset, x.count s * f s := by
      refine Finset.sum_subset (fun s _ => List.mem_toFinset.2 (mem_allSymbols s)) fun s _ hs => ?_
      rw [List.count_eq_zero_of_not_mem (mt List.mem_toFinset.2 hs), Nat.zero_mul]
    _ = (allSymbols.map fun s => x.count s * f s).sum := List.sum_toFinset _ allSymbols_nodup

theorem payloadEncode_length_eq_payloadLength (T : CodeTable) (x : List Byte) :
    (payloadEncode T x).length = payloadLength (freqCount x) T := by
  rw [payloadEncode_length, sum_map_eq_sum_allSymbols]
  simp only [payloadLength, freqCount_at]

/-- Settles O53: every byte of the input adds its codeword, of one bit for a single leaf and of 1 to 255 bits always. -/
theorem payloadLength_of_buildTree : Obligations.PayloadLength := by
  intro x t h
  obtain ⟨hnodup, -, hcode⟩ := codes_of_buildTree h
  have hbits : ∀ k ∈ x.map fun b => (((deriveCodes t).at b).getD []).length,
      (t.symbols.length = 1 → k = 1) ∧ 1 ≤ k ∧ k ≤ 255 := by
    intro k hk
    obtain ⟨b, hb, rfl⟩ := List.mem_map.1 hk
    obtain ⟨c, hc⟩ := hcode b hb
    obtain ⟨-, hlengths⟩ := codewordLengths t b c hnodup hc
    rwa [hc]
  refine ⟨payloadEncode_length_eq_payloadLength _ x, fun hone => ?_, ?_, ?_⟩ <;> rw [payloadEncode_length]
  · simpa using List.sum_eq_card_nsmul _ 1 fun k hk => (hbits k hk).1 hone
  · simpa using List.length_le_sum_of_one_le _ fun k hk => (hbits k hk).2.1
  · simpa [Nat.mul_comm] using List.sum_le_card_nsmul _ 255 fun k hk => (hbits k hk).2.2

/-! Matching against the codeword table (spec/45_payload.md R202, R203). -/

theorem matchCode_eq_none {T : CodeTable} {buf : List Bit} (h : ∀ s, T.at s ≠ some buf) : matchCode T buf = none :=
  List.find?_eq_none.2 fun s _ hs => h s (beq_iff_eq.1 hs)

/-- The only symbol with the codeword `buf` is the one found. -/
theorem matchCode_eq_some {T : CodeTable} {buf : List Bit} {s : Byte} (h : ∀ s', T.at s' = some buf ↔ s' = s) :
    matchCode T buf = some s := by
  cases hmatch : matchCode T buf with
  | none =>
    have hnone := List.find?_eq_none.1 hmatch s (mem_allSymbols s)
    exact absurd (beq_iff_eq.2 ((h s).2 rfl)) hnone
  | some s' =>
    have hcode := List.find?_some hmatch
    rw [(h s').1 (beq_iff_eq.1 hcode)]

theorem prefixOfCode_iff {T : CodeTable} {buf : List Bit} :
    prefixOfCode T buf = true ↔ ∃ s c, c ≠ [] ∧ T.at s = some (buf ++ c) := by
  rw [prefixOfCode, List.any_eq_true]
  constructor
  · rintro ⟨s, -, hs⟩
    split at hs
    · cases hs
    · next code hcode =>
      obtain ⟨hprefix, hlt⟩ := (Bool.and_eq_true _ _).mp hs
      obtain ⟨c, rfl⟩ := List.isPrefixOf_iff_prefix.1 hprefix
      refine ⟨s, c, ?_, hcode⟩
      rintro rfl
      simp at hlt
  · rintro ⟨s, c, hc, hcode⟩
    refine ⟨s, mem_allSymbols s, ?_⟩
    simp [hcode, List.length_pos_iff.2 hc]

theorem greedyLoop_cons_of_match {T : CodeTable} {buf : List Bit} {b : Bit} {s : Byte}
    (h : matchCode T (buf ++ [b]) = some s) (out : List Byte) (P : List Bit) :
    greedyLoop T buf out (b :: P) = greedyLoop T [] (out ++ [s]) P := by
  rw [greedyLoop, h]

theorem greedyLoop_cons_of_no_match {T : CodeTable} {buf : List Bit} {b : Bit}
    (h : matchCode T (buf ++ [b]) = none) (out : List Byte) (P : List Bit) :
    greedyLoop T buf out (b :: P) = greedyLoop T (buf ++ [b]) out P := by
  rw [greedyLoop, h]

/-- Bits that no codeword begins with stay unresolved, whatever follows. -/
theorem greedyLoop_of_no_code {T : CodeTable} {buf : List Bit} (hne : buf ≠ []) (h : ∀ s c, T.at s ≠ some (buf ++ c))
    (out : List Byte) (P : List Bit) : greedyLoop T buf out P = .error .unresolvedPayloadBits := by
  induction P generalizing buf with
  | nil =>
    have hprefix : ¬ prefixOfCode T buf = true := fun hp => by
      obtain ⟨s, c, -, hcode⟩ := prefixOfCode_iff.1 hp
      exact h s c hcode
    rw [greedyLoop, if_neg hne, if_neg hprefix]
  | cons b P ih =>
    rw [greedyLoop_cons_of_no_match (matchCode_eq_none fun s => h s [b])]
    exact ih (by simp) fun s c => by simpa using h s (b :: c)

/-! The tree walk beside greedy matching (spec/45_payload.md R206, R207). -/

/-- In a tree of distinct leaves with the sides of R125, the path to a leaf begins with the bit of the child that has
the leaf (R206). -/
theorem pathTo_eq_cons_iff {c0 c1 : Node} {f : Nat} {d b : Bit} {s : Byte} {c : List Bit}
    (hsides : (Node.internal c0 c1 f d).sidesOk = true) (hnodup : (Node.internal c0 c1 f d).symbols.Nodup) :
    s ∈ (Node.internal c0 c1 f d).symbols ∧ (Node.internal c0 c1 f d).pathTo s = b :: c ↔
      s ∈ ((Node.internal c0 c1 f d).child b).symbols ∧ ((Node.internal c0 c1 f d).child b).pathTo s = c := by
  obtain ⟨hside0, hside1, -, -⟩ := sidesOk_internal hsides
  obtain ⟨-, -, hdisjoint⟩ := List.nodup_append'.1 hnodup
  by_cases h0 : s ∈ c0.symbols
  · have h1 : s ∉ c1.symbols := hdisjoint h0
    cases b <;> simp [Node.child, Node.symbols, pathTo_of_mem_c0 h0, hside0, h0, h1]
  · cases b <;> simp [Node.child, Node.symbols, pathTo_of_not_mem_c0 h0, hside1, h0]

/-- After the bits `buf` of a codeword, the walk stands at `n`: the codewords that begin with `buf` are those of the leaves
below `n`, and go on by the path to the leaf. -/
structure WalkStandsAt (T : CodeTable) (buf : List Bit) (n : Node) : Prop where
  codes : ∀ s c, T.at s = some (buf ++ c) ↔ s ∈ n.symbols ∧ n.pathTo s = c
  nodup : n.symbols.Nodup
  sides : n.sidesOk = true

theorem WalkStandsAt.root {c0 c1 : Node} {f : Nat} {d : Bit} (hnodup : (Node.internal c0 c1 f d).symbols.Nodup)
    (hsides : (Node.internal c0 c1 f d).sidesOk = true) :
    WalkStandsAt (deriveCodes (.internal c0 c1 f d)) [] (.internal c0 c1 f d) where
  nodup := hnodup
  sides := hsides
  codes s c := by
    have hpath : s ∈ (Node.internal c0 c1 f d).symbols →
        (deriveCodes (.internal c0 c1 f d)).at s = some ((Node.internal c0 c1 f d).pathTo s) :=
      fun h => walkCodes_at_of_mem hnodup h [] CodeTable.empty
    constructor
    · intro hcode
      have hs := mem_symbols_of_code hcode
      exact ⟨hs, Option.some.inj ((hpath hs).symm.trans hcode)⟩
    · rintro ⟨hs, rfl⟩
      exact hpath hs

theorem WalkStandsAt.child {T : CodeTable} {buf : List Bit} {c0 c1 : Node} {f : Nat} {d : Bit}
    (h : WalkStandsAt T buf (.internal c0 c1 f d)) (b : Bit) :
    WalkStandsAt T (buf ++ [b]) ((Node.internal c0 c1 f d).child b) := by
  obtain ⟨-, -, hsides0, hsides1⟩ := sidesOk_internal h.sides
  obtain ⟨hnodup0, hnodup1, -⟩ := List.nodup_append'.1 h.nodup
  constructor
  case codes =>
    intro s c
    rw [← List.append_cons, h.codes, pathTo_eq_cons_iff h.sides h.nodup]
  case nodup => cases b <;> assumption
  case sides => cases b <;> assumption

/-- At a Leaf the bits are its symbol's codeword. -/
theorem WalkStandsAt.matchCode_leaf {T : CodeTable} {buf : List Bit} {s : Byte} {f : Nat} {d : Bit}
    (h : WalkStandsAt T buf (.leaf s f d)) : matchCode T buf = some s := by
  refine matchCode_eq_some fun s' => ?_
  simpa [Node.symbols, Node.pathTo] using h.codes s' []

theorem pathTo_internal_ne_nil (c0 c1 : Node) (f : Nat) (d : Bit) (s : Byte) :
    (Node.internal c0 c1 f d).pathTo s ≠ [] := by
  rw [Node.pathTo]
  split <;> simp

/-- At an Internal node the bits are no codeword. -/
theorem WalkStandsAt.matchCode_internal {T : CodeTable} {buf : List Bit} {c0 c1 : Node} {f : Nat} {d : Bit}
    (h : WalkStandsAt T buf (.internal c0 c1 f d)) : matchCode T buf = none := by
  refine matchCode_eq_none fun s hs => ?_
  obtain ⟨-, hpath⟩ := (h.codes s []).1 (by rwa [List.append_nil])
  exact pathTo_internal_ne_nil c0 c1 f d s hpath

/-- At an Internal node the bits begin the codeword of a leaf below. -/
theorem WalkStandsAt.prefixOfCode_internal {T : CodeTable} {buf : List Bit} {c0 c1 : Node} {f : Nat} {d : Bit}
    (h : WalkStandsAt T buf (.internal c0 c1 f d)) : prefixOfCode T buf = true := by
  have hleaves := internals_add_one (.internal c0 c1 f d)
  obtain ⟨s, hs⟩ := List.exists_mem_of_length_pos (l := (Node.internal c0 c1 f d).symbols) (by omega)
  exact prefixOfCode_iff.2 ⟨s, _, pathTo_internal_ne_nil c0 c1 f d s, (h.codes s _).2 ⟨hs, rfl⟩⟩

/-- Under an Internal root the walk and the matching go side by side: `pending` says that `buf` is not empty. -/
theorem walkDecode_eq_greedyLoop {T : CodeTable} {r0 r1 : Node} {rf : Nat} {rd : Bit}
    (hroot : WalkStandsAt T [] (.internal r0 r1 rf rd)) (P : List Bit) {buf : List Bit} {c0 c1 : Node} {f : Nat} {d : Bit}
    (h : WalkStandsAt T buf (.internal c0 c1 f d)) (out : List Byte) :
    walkDecode (.internal r0 r1 rf rd) (.internal c0 c1 f d) (!buf.isEmpty) out P = greedyLoop T buf out P := by
  induction P generalizing buf c0 c1 f d out with
  | nil =>
    rw [walkDecode, greedyLoop, if_pos h.prefixOfCode_internal]
    cases buf <;> rfl
  | cons b P ih =>
    have hchild := h.child b
    rw [walkDecode]
    split
    · next s f' d' hleaf =>
      rw [hleaf] at hchild
      rw [greedyLoop_cons_of_match hchild.matchCode_leaf]
      exact ih hroot _
    · next c0' c1' f' d' hinternal =>
      rw [hinternal] at hchild
      have hpending : (!(buf ++ [b]).isEmpty) = true := by cases buf <;> rfl
      rw [greedyLoop_cons_of_no_match hchild.matchCode_internal, ← ih hchild, hpending]

/-- Under a single-Leaf root the codeword is `[0]`, and no codeword begins with 1 (R206, D6). -/
theorem leafDecode_eq_greedyLoop (s : Byte) (f : Nat) (d : Bit) (out : List Byte) (P : List Bit) :
    leafDecode s out P = greedyLoop (deriveCodes (.leaf s f d)) [] out P := by
  induction P generalizing out with
  | nil => rfl
  | cons b P ih =>
    cases b with
    | false =>
      have hmatch : matchCode (deriveCodes (.leaf s f d)) [false] = some s :=
        matchCode_eq_some fun s' => by simp [deriveCodes_leaf, eq_comm]
      rw [leafDecode, greedyLoop_cons_of_match hmatch, ih]
    | true =>
      have hnone : ∀ s' c, (deriveCodes (.leaf s f d)).at s' ≠ some ([true] ++ c) := by simp [deriveCodes_leaf]
      rw [leafDecode, greedyLoop_cons_of_no_match (matchCode_eq_none fun s' => hnone s' []),
        List.nil_append, greedyLoop_of_no_code (by simp) hnone]

/-- Settles O54: a parsed tree has distinct symbols and the sides of R125, which is all that the two decoders need to agree. -/
theorem walkAgreesWithGreedy : Obligations.WalkAgreesWithGreedy := by
  intro C p P h
  obtain ⟨-, hnodup, -⟩ := deserializeTree_ok h
  obtain ⟨-, -, hsides, -⟩ := deserializeTree_reads h
  cases hroot : p.root with
  | leaf s f d => exact leafDecode_eq_greedyLoop s f d [] P
  | internal c0 c1 f d =>
    rw [hroot] at hnodup hsides
    exact walkDecode_eq_greedyLoop (.root hnodup hsides) P (.root hnodup hsides) []

/-! The round trip of a payload (spec/45_payload.md R208). -/

/-- Greedy matching reads the rest of a codeword when no other symbol's codeword begins it (R203). -/
theorem greedyLoop_code {T : CodeTable} {s : Byte} {code : List Bit} (hcode : T.at s = some code)
    (hfree : ∀ s' code', T.at s' = some code' → code' <+: code → s' = s) {buf c : List Bit} (hc : c ≠ [])
    (hsplit : buf ++ c = code) (out : List Byte) (P : List Bit) :
    greedyLoop T buf out (c ++ P) = greedyLoop T [] (out ++ [s]) P := by
  induction c generalizing buf with
  | nil => exact absurd rfl hc
  | cons b c ih =>
    rw [List.append_cons] at hsplit
    rcases eq_or_ne c [] with rfl | hrest
    · rw [List.append_nil] at hsplit
      refine greedyLoop_cons_of_match (matchCode_eq_some fun s' => ?_) out P
      rw [hsplit]
      exact ⟨fun h => hfree s' code h (List.prefix_refl code), fun h => h ▸ hcode⟩
    · have hnone : ∀ s', T.at s' ≠ some (buf ++ [b]) := by
        intro s' h
        obtain rfl := hfree s' _ h ⟨c, hsplit⟩
        obtain rfl := Option.some.inj (hcode.symm.trans h)
        exact hrest (List.append_right_eq_self.1 hsplit)
      exact (greedyLoop_cons_of_no_match (matchCode_eq_none hnone) out (c ++ P)).trans (ih hrest hsplit)

/-- Greedy matching inverts PAYLOAD_ENCODE: in a tree no codeword begins another (42_codeword.md R143). -/
theorem greedyLoop_payloadEncode {t : Node} (hnodup : t.symbols.Nodup) (hsides : t.sidesOk = true) {x : List Byte}
    (hx : ∀ b ∈ x, ∃ c, (deriveCodes t).at b = some c) (out : List Byte) :
    greedyLoop (deriveCodes t) [] out (payloadEncode (deriveCodes t) x) = .ok (out ++ x) := by
  induction x generalizing out with
  | nil => simp [payloadEncode, greedyLoop]
  | cons b x ih =>
    obtain ⟨⟨c, hc⟩, hx'⟩ := List.forall_mem_cons.1 hx
    have hne : c ≠ [] := List.ne_nil_of_length_pos (deriveCodes_length hc).1
    have hfree : ∀ s' c', (deriveCodes t).at s' = some c' → c' <+: c → s' = b := fun s' c' hc' hprefix =>
      by_contra fun hother => codewordsArePrefixFree t s' b c' c hnodup hsides hother hc' hc hprefix
    rw [payloadEncode_cons hc, greedyLoop_code hc hfree hne (List.nil_append c), ih hx', List.append_assoc]
    rfl

/-- Settles O55: the tree comes back with the same codewords, and on it the walk does what greedy matching does. -/
theorem payloadRoundTrip : Obligations.PayloadRoundTrip := by
  intro x t _ h
  obtain ⟨hnodup, hsides, hcode⟩ := codes_of_buildTree h
  obtain ⟨hparse, hcodes⟩ := treeRoundTrip x t [] h
  rw [List.append_nil] at hparse
  refine ⟨_, hparse, ?_⟩
  rw [walkAgreesWithGreedy _ _ _ hparse, hcodes]
  exact greedyLoop_payloadEncode hnodup hsides hcode []

end Sys2Proof.Machine

namespace Sys2Proof.Machine

/-! ENCODE_FN and DECODE_FN on each path of the data flow (spec/46_commands.md R220). -/

theorem exists_buildTree {x : List Byte} (hx : x ≠ []) : ∃ t, buildTree (freqCount x) = some t :=
  (builtTreeShape x hx).imp fun _ h => h.1

theorem encodeFn_of_buildTree {x : List Byte} {t : Node} (h : buildTree (freqCount x) = some t) :
    encodeFn x = .ok (pack (encodeContent t x)) := by
  simp [encodeFn, ne_nil_of_buildTree h, h]

theorem decodeFn_of_unpack_error {x : List Byte} {e : ErrCode} (h : unpack x = .error e) : decodeFn x = .error e := by
  simp [decodeFn, h]

theorem decodeFn_of_parse_error {x : List Byte} {C : List Bit} {e : ErrCode} (hC : unpack x = .ok C)
    (hp : deserializeTree C = .error e) : decodeFn x = .error e := by
  simp [decodeFn, hC, hp]

theorem decodeFn_of_parse {x : List Byte} {C : List Bit} {p : ParsedTree} (hC : unpack x = .ok C)
    (hp : deserializeTree C = .ok p) : decodeFn x = payloadDecode p.root (C.drop p.used) := by
  simp [decodeFn, hC, hp]

/-- Settles O7: the four paths of the two functions, and the tree of a non-empty input. -/
theorem codecFunctionsCompose : Obligations.CodecFunctionsCompose := by
  refine ⟨rfl, fun x hx => ?_, fun _ _ => decodeFn_of_unpack_error, fun _ _ _ => decodeFn_of_parse_error,
    fun _ _ _ => decodeFn_of_parse⟩
  obtain ⟨t, ht⟩ := exists_buildTree hx
  exact ⟨t, ht, encodeFn_of_buildTree ht⟩

/-! The unit of an input (spec/46_commands.md R225, R228). -/

/-- The tree that DESERIALIZE_TREE gives back decodes the payload encoded under the built one (45_payload.md R208). -/
theorem payloadDecode_eraseFreq {x : List Byte} {t : Node} (h : buildTree (freqCount x) = some t) :
    payloadDecode t.eraseFreq (payloadEncode (deriveCodes t) x) = .ok x := by
  obtain ⟨p, hp, hdecode⟩ := payloadRoundTrip x t (ne_nil_of_buildTree h) h
  obtain ⟨hparse, -⟩ := treeRoundTrip x t [] h
  rw [List.append_nil, hp] at hparse
  obtain rfl := Except.ok.inj hparse
  exact hdecode

theorem decodeFn_pack_encodeContent {x : List Byte} {t : Node} (h : buildTree (freqCount x) = some t) :
    decodeFn (pack (encodeContent t x)) = .ok x := by
  obtain ⟨hparse, -⟩ := treeRoundTrip x t (payloadEncode (deriveCodes t) x) h
  obtain ⟨hused, -⟩ := treeFieldLength t
  calc
    decodeFn (pack (encodeContent t x)) =
        payloadDecode t.eraseFreq ((encodeContent t x).drop (10 * t.symbols.length - 1)) :=
      decodeFn_of_parse (unpackAfterPack _) hparse
    _ = payloadDecode t.eraseFreq (payloadEncode (deriveCodes t) x) := by
      rw [encodeContent, List.drop_left' hused]
    _ = .ok x := payloadDecode_eraseFreq h

/-- Settles O57: UNPACK gives the content back, the parse the tree and its length, and the walk the bytes. -/
theorem encodedUnitRoundTrip : Obligations.EncodedUnitRoundTrip := by
  intro x hx
  obtain ⟨t, ht⟩ := exists_buildTree hx
  exact ⟨_, encodeFn_of_buildTree ht, decodeFn_pack_encodeContent ht⟩

/-- The header of a byte string is the top three bits of its first byte. -/
theorem head_header_of_bytesToBits {y : List Byte} {u : Nat} {R : List Bit} (hu : u < 8)
    (hy : bytesToBits y = bits3 u ++ R) : y.head?.map (fun b => (b.extractLsb' 5 3).toNat) = some u := by
  cases y with
  | nil => exact nomatch hy
  | cons b y =>
    rw [bytesToBits_cons_header] at hy
    have hheader : bits3 (b.extractLsb' 5 3).toNat = bits3 u := List.append_inj_left hy rfl
    have hval : (b.extractLsb' 5 3).toNat = u := by
      rw [← bitsVal_bits3 (b.extractLsb' 5 3).isLt, hheader, bitsVal_bits3 hu]
    exact congrArg some hval

theorem pack_head_header (C : List Bit) :
    (pack C).head?.map (fun b => (b.extractLsb' 5 3).toNat) = some ((3 + C.length) % 8) := by
  have hbits := packedUnitLayout C
  rw [List.append_assoc] at hbits
  exact head_header_of_bytesToBits (Nat.mod_lt _ (by decide)) hbits

/-- A built tree has a leaf for each present symbol (41_tree_builder.md R126). -/
theorem symbols_length_of_buildTree {x : List Byte} {t : Node} (h : buildTree (freqCount x) = some t) :
    t.symbols.length = presentCount (freqCount x) := by
  obtain ⟨t', ht', -, -, hleaves, -⟩ := builtTreeShape x (ne_nil_of_buildTree h)
  obtain rfl := Option.some.inj (h.symm.trans ht')
  exact hleaves

/-- The logical length of a unit: its header, its tree field and its payload. -/
theorem header_add_encodeContent_length {x : List Byte} {t : Node} (h : buildTree (freqCount x) = some t) :
    3 + (encodeContent t x).length =
      3 + (10 * presentCount (freqCount x) - 1) + payloadLength (freqCount x) (deriveCodes t) := by
  obtain ⟨htree, -⟩ := treeFieldLength t
  rw [encodeContent, List.length_append, htree, symbols_length_of_buildTree h, payloadEncode_length_eq_payloadLength,
    Nat.add_assoc]

/-- Settles O58: the unit is the packed content, whose length is that of the tree field and of the payload. -/
theorem encodeOutputLength : Obligations.EncodeOutputLength := by
  intro x u t ht hu
  obtain rfl := Except.ok.inj ((encodeFn_of_buildTree ht).symm.trans hu)
  have hlength := header_add_encodeContent_length ht
  refine ⟨?_, ?_, fun hone => ?_⟩
  · rw [pack_length, hlength]
  · rw [pack_head_header, hlength]
  · obtain ⟨hpayload, hsingle, -⟩ := payloadLength_of_buildTree x t ht
    rw [← hpayload, hsingle ((symbols_length_of_buildTree ht).trans hone), hone]

/-! The completion of a command (spec/46_commands.md R221, R226; spec/60_exceptions.md R250). -/

theorem commandFrame_completeOk (y : List Byte) (s : State) (engine' : Engine) :
    CommandFrame s { completeOk y s with engine := engine' } :=
  ⟨rfl, rfl, rfl, fun _ => rfl, rfl, rfl, rfl, rfl⟩

theorem commandSucceeded_completeOk {y : List Byte} (hy : y.length < 2 ^ 32) (s : State) (engine' : Engine) :
    CommandSucceeded y s { completeOk y s with engine := engine' } where
  busy := rfl
  done := rfl
  err := rfl
  errcode := rfl
  outLen := by
    show (outLenWord y.length s.draws).toNat = y.length
    rw [outLenWord, if_pos hy, BitVec.toNat_ofNat, Nat.mod_eq_of_lt hy]
  outBytes i hi := by simp [read_cellsFrom, hi]
  outRest i hi := by simp [read_cellsFrom, hi]
  frame := commandFrame_completeOk y s engine'

theorem commandFailed_completeError (e : ErrCode) (s : State) : CommandFailed e s (completeError e s) where
  busy := rfl
  done := rfl
  err := completeError_err e s
  errcode := rfl
  outLen := rfl
  outBytes := read_nil
  engine := rfl
  frame := ⟨rfl, rfl, rfl, fun _ => rfl, rfl, rfl, rfl, rfl⟩

/-- RUN of a legal command on defined input within IN_CAP is its function, limited to OUT_CAP. -/
theorem runCodec_of_input {s : State} {x : List Byte} (hlen : s.inLen.toNat ≤ s.build.inCap)
    (hx : s.inputBytes = some x) (codec : List Byte → Result (List Byte)) :
    runCodec codec s = limitOutput s.build.outCap (codec x) := by
  simp [runCodec, hx, Nat.not_lt.2 hlen]

section DefinedInput

variable {i : Instr} {s : State} {x : List Byte} (hlen : s.inLen.toNat ≤ s.build.inCap) (hx : s.inputBytes = some x)
include hlen hx

theorem exec_of_ok {y : List Byte} (hcodec : codecOf i x = .ok y) (hy : y.length ≤ s.build.outCap) :
    exec i s = .next { completeOk y s with engine := tablesAfter i x y s.engine } := by
  have hrun : runCodec (codecOf i) s = .ok y := by
    rw [runCodec_of_input hlen hx, hcodec]
    exact if_neg (Nat.not_lt.2 hy)
  rw [exec_eq]
  simp [runAndComplete, hrun, hx]

theorem exec_of_error {e : ErrCode} (hcodec : codecOf i x = .error e) : exec i s = .next (completeError e s) := by
  have hrun : runCodec (codecOf i) s = .error e := by
    rw [runCodec_of_input hlen hx, hcodec]
    rfl
  rw [exec_eq]
  simp [runAndComplete, hrun]

/-- A result that fits in OUT_CAP and in OUT_LEN stands in OUT, and STATUS is 0x00000002. -/
theorem exec_succeeds {y : List Byte} (hcodec : codecOf i x = .ok y) (hy : y.length ≤ s.build.outCap)
    (hword : y.length < 2 ^ 32) :
    ∃ t, exec i s = .next t ∧ CommandSucceeded y s t ∧ t.status = 0x00000002#32 :=
  ⟨_, exec_of_ok hlen hx hcodec hy, commandSucceeded_completeOk hword s _, completeOk_status y s⟩

end DefinedInput

/-- Settles O8: ENCODE_FN of a non-empty input is the unit of its tree, and ENCODE completes with it. -/
theorem encodeWritesTheUnit : Obligations.EncodeWritesTheUnit := by
  intro s x hlen hx hne
  obtain ⟨tree, htree⟩ := exists_buildTree hne
  exact ⟨tree, _, htree, rfl, fun hu hword => exec_succeeds hlen hx (i := .encode) (encodeFn_of_buildTree htree) hu hword⟩

/-- Settles O9: DECODE completes with what DECODE_FN gives. -/
theorem decodeWritesTheBytes : Obligations.DecodeWritesTheBytes := by
  intro s x hlen hx
  refine ⟨fun y hy hcap hword => exec_succeeds hlen hx (i := .decode) hy hcap hword, fun e he => ?_⟩
  exact ⟨_, exec_of_error hlen hx (i := .decode) he, commandFailed_completeError e s⟩

/-- Settles O14: a completion is a result or an error, and each leaves the frame; only an error sets ERR. -/
theorem commandsKeepTheFrame : Obligations.CommandsKeepTheFrame := by
  intro i s t h
  rcases exec_cases h with ⟨x, y, -, -, -, -, rfl⟩ | ⟨y, -, -, rfl⟩ | ⟨e, rfl⟩
  · exact ⟨commandFrame_completeOk y s _, fun herr => nomatch (completeOk_err y s).symm.trans herr⟩
  · exact ⟨commandFrame_completeOk y s s.engine, fun herr => nomatch (completeOk_err y s).symm.trans herr⟩
  · exact ⟨(commandFailed_completeError e s).frame, fun _ => rfl⟩

/-- Settles O13: whatever RUN gives, its completion sets BUSY to 0 and DONE to 1. -/
theorem everyCommandCompletes : Obligations.EveryCommandCompletes := by
  intro i s
  obtain ⟨t, ht⟩ : ∃ t, exec i s = .next t := ⟨_, exec_eq i s⟩
  refine ⟨t, ht, ?_⟩
  rcases exec_cases ht with ⟨x, y, -, -, -, -, rfl⟩ | ⟨y, -, -, rfl⟩ | ⟨e, rfl⟩ <;> exact ⟨rfl, rfl⟩

/-- Settles O6: the engine finds no command for the word, and completes with the error before it reads IN_LEN or IN. -/
theorem illegalCommandCompletes : Obligations.IllegalCommandCompletes := by
  intro s hbusy hdelay hreset hencode hdecode
  have hdue : s.engineDue = true := by simp [State.engineDue, hbusy, hdelay]
  have hword : decodeCmd s.cmdWord = none := by simp [decodeCmd, hencode, hdecode]
  have hstep : step s = .next (completeError .illegalCommand { s with platform := tickPlatform s.platform }) := by
    rw [step_of_engineDue hreset hdue, tick_of_delay_zero hdelay]
    simp [engineStep, hword, execIllegal]
  exact ⟨_, hstep, commandFailed_completeError .illegalCommand _, rfl, completeError_status .illegalCommand _⟩

/-! Steps in which no command completes (spec/46_commands.md R227; spec/20_memory.md R70). -/

theorem step_of_hostTurn {s : State} (hreset : s.resetDue = false) (hdue : s.engineDue = false) :
    step s = hostTurn s.tick := by
  simp [step, hreset, hdue]

/-- While a command runs, the host's turn touches nothing of HUFCORE. -/
theorem hostTurn_busy {s t : State} (hbusy : s.busy = true) (h : hostTurn s = .next t) :
    ∃ host' draws', t = { s with host := host', draws := draws' } := by
  rcases hostTurn_effects h with ⟨host', draws', ht, -⟩ | ⟨hidle, -⟩ | ⟨hidle, -⟩ | ⟨hidle, -⟩
  · exact ⟨host', draws', ht⟩
  all_goals exact nomatch hbusy.symm.trans hidle

/-- With no RESET to come, a step before the command is due only counts the delay down and moves the host. -/
theorem step_waiting {s t : State} (hbusy : s.busy = true) (hplatform : s.platform = []) (hdelay : s.delay ≠ 0)
    (h : step s = .next t) : ∃ host' draws', t = { s.afterHost 1 host' with draws := draws' } := by
  rw [step_of_hostTurn (resetDue_of_platform_nil hplatform) (engineDue_of_delay hdelay),
    tick_of_platform_nil hplatform] at h
  exact hostTurn_busy (s := { s with delay := s.delay - 1 }) hbusy h

/-- So does a run that is no longer than the delay. -/
theorem core_run_waiting {n : Nat} {s t : State} (hbusy : s.busy = true) (hplatform : s.platform = [])
    (hn : n ≤ s.delay) (h : Sys2Proof.core.run n s = .next t) :
    ∃ host' draws', t = { s.afterHost n host' with draws := draws' } := by
  induction n generalizing s with
  | zero => exact ⟨s.host, s.draws, (Host.Outcome.next.inj h).symm⟩
  | succ n ih =>
    obtain ⟨s', hstep, hrun⟩ := core_run_succ_next h
    obtain ⟨host₁, draws₁, rfl⟩ := step_waiting hbusy hplatform (Nat.ne_zero_of_lt hn) hstep
    obtain ⟨host₂, draws₂, rfl⟩ :=
      ih (s := { s.afterHost 1 host₁ with draws := draws₁ }) hbusy hplatform (Nat.le_sub_of_add_le hn) hrun
    exact ⟨host₂, draws₂, by simp [State.afterHost, Nat.sub_sub, Nat.add_comm]⟩

/-- Settles O30: the delay counted down to 0, the command is due, and the next step completes it. -/
theorem commandCompletesAfterItsDelay : Obligations.CommandCompletesAfterItsDelay := by
  intro s t hbusy hplatform hrun
  obtain ⟨host', draws', rfl⟩ := core_run_waiting hbusy hplatform le_rfl hrun
  have hdelay : s.delay - s.delay = 0 := Nat.sub_self s.delay
  obtain ⟨u, hu, hidle, hdone, -⟩ :=
    step_completes (s := { s.afterHost s.delay host' with draws := draws' }) hbusy hdelay hplatform
  exact ⟨hbusy, hdelay, rfl, rfl, rfl, rfl, u, hu, hidle, hdone⟩

/-- The host's turn leaves STATUS, OUT_LEN and OUT, unless a CMD write is accepted. -/
theorem hostTurn_keeps_result {s t : State} (h : hostTurn s = .next t)
    (hcmd : s.busy = true ∨ ∀ v, s.host.current ≠ some (.write .reg 0x00 4 v)) :
    t.busy = s.busy ∧ t.status = s.status ∧ t.outLen = s.outLen ∧ t.outMem = s.outMem := by
  rcases hostTurn_effects h with ⟨_, _, rfl, -⟩ | ⟨hidle, v, hcur, -⟩ | ⟨-, _, rfl⟩ | ⟨-, _, _, -, -, rfl⟩
  · exact ⟨rfl, rfl, rfl, rfl⟩
  · rcases hcmd with hbusy | hother
    · exact nomatch hbusy.symm.trans hidle
    · exact absurd hcur (hother v)
  · exact ⟨rfl, rfl, rfl, rfl⟩
  · exact ⟨rfl, rfl, rfl, rfl⟩

/-- A final state has nothing to do but let time pass (log entry 21). -/
theorem step_of_final {s : State} (hfinal : s.final) (hreset : s.resetDue = false) : step s = .next s.tick := by
  obtain ⟨hended, hidle⟩ := hfinal
  rw [step_of_hostTurn hreset (engineDue_of_idle hidle)]
  simp [hostTurn, hended]

/-- Settles O31: the idle step is `tick`, and of the host's turns only an accepted CMD write touches a result. -/
theorem finalStateRests : Obligations.FinalStateRests := by
  refine ⟨fun s hfinal hreset => ?_, fun s t h hreset hdue hcmd => ?_⟩
  · exact ⟨s.tick, step_of_final hfinal hreset, hfinal, tick_status s, rfl, rfl, rfl, rfl, rfl, rfl⟩
  · exact hostTurn_keeps_result (s := s.tick) ((step_of_hostTurn hreset hdue).symm.trans h) hcmd

end Sys2Proof.Machine

namespace Sys2Proof.Machine

/-! What starts the engine (spec/60_exceptions.md R261; spec/70_reset_and_hazards.md R271). -/

/-- Settles O27: RESET and a completion leave BUSY at 0, and of the host's turns only an accepted CMD write sets it. -/
theorem onlyCmdWriteWakes : Obligations.OnlyCmdWriteWakes := by
  intro s t hidle h hbusy
  rcases step_cases h with ⟨-, rfl⟩ | ⟨-, hdue, -⟩ | ⟨hreset, -, hhost⟩
  · exact nomatch hbusy
  · exact nomatch (engineDue_of_idle hidle).symm.trans hdue
  · refine ⟨hreset, ?_⟩
    rcases hostTurn_effects hhost with ⟨_, _, rfl, -⟩ | ⟨-, v, hcur, rfl⟩ | ⟨-, _, rfl⟩ | ⟨-, _, _, -, -, rfl⟩
    · exact nomatch hidle.symm.trans hbusy
    · exact ⟨v, hcur, rfl⟩
    · exact nomatch hidle.symm.trans hbusy
    · exact nomatch hidle.symm.trans hbusy

/-! The errors of each stage of DECODE_FN (spec/60_exceptions.md R243 to R245). -/

theorem readSymbol_error {bs : List Bit} {e : ErrCode} (h : readSymbol bs = .error e) : e = .truncatedStream := by
  unfold readSymbol at h
  split at h
  · cases h
  · exact (Except.error.inj h).symm

theorem parseLeaf_error {st : ParseState} {e : ErrCode} (h : parseLeaf st = .error e) :
    e = .truncatedStream ∨ e = .malformedTree := by
  unfold parseLeaf at h
  split at h
  · next hsymbol => exact .inl (Except.error.inj h ▸ readSymbol_error hsymbol)
  · split at h
    · exact .inr (Except.error.inj h).symm
    · cases h

/-- An Internal node fails as a child does, or as the 256th. -/
theorem parseNode_error {fuel : Nat} {st : ParseState} {e : ErrCode} (h : parseNode fuel st = .error e) :
    e = .truncatedStream ∨ e = .malformedTree := by
  induction fuel generalizing st with
  | zero => exact .inl (Except.error.inj h).symm
  | succ fuel ih =>
    unfold parseNode at h
    split at h
    · exact .inl (Except.error.inj h).symm
    · exact parseLeaf_error h
    · split at h
      · exact .inr (Except.error.inj h).symm
      · split at h
        · next h0 =>
          obtain rfl := Except.error.inj h
          exact ih h0
        · split at h
          · next h1 =>
            obtain rfl := Except.error.inj h
            exact ih h1
          · cases h

theorem deserializeTree_error {C : List Bit} {e : ErrCode} (h : deserializeTree C = .error e) :
    e = .truncatedStream ∨ e = .malformedTree := by
  unfold deserializeTree at h
  split at h
  · next hparse => exact Except.error.inj h ▸ parseNode_error hparse
  · cases h

/-- Under a single-Leaf root a 0 bit is a symbol, and the first 1 bit is the error (R206, D6). -/
theorem leafDecode_eq_error_iff {s : Byte} {out : List Byte} {P : List Bit} {e : ErrCode} :
    leafDecode s out P = .error e ↔ e = .unresolvedPayloadBits ∧ true ∈ P := by
  induction P generalizing out with
  | nil => simp [leafDecode]
  | cons b P ih =>
    cases b with
    | false => simp [leafDecode, ih]
    | true => simp [leafDecode, eq_comm]

/-- Under an Internal root the walk fails only where the payload ends inside a codeword. -/
theorem walkDecode_error {root n : Node} {pending : Bool} {out : List Byte} {P : List Bit} {e : ErrCode}
    (h : walkDecode root n pending out P = .error e) : e = .truncatedStream := by
  induction P generalizing n pending out with
  | nil =>
    rw [walkDecode] at h
    split at h
    · exact (Except.error.inj h).symm
    · cases h
  | cons b P ih =>
    rw [walkDecode] at h
    split at h
    · exact ih h
    · exact ih h

theorem payloadDecode_error {root : Node} {P : List Bit} {e : ErrCode} (h : payloadDecode root P = .error e) :
    e = .truncatedStream ∨ e = .unresolvedPayloadBits := by
  cases root with
  | leaf s f d => exact .inr (leafDecode_eq_error_iff.1 h).1
  | internal c0 c1 f d => exact .inl (walkDecode_error h)

theorem payloadDecode_eq_unresolved_iff {root : Node} {P : List Bit} :
    payloadDecode root P = .error .unresolvedPayloadBits ↔ root.internals = 0 ∧ true ∈ P := by
  cases root with
  | leaf s f d => simp [payloadDecode, leafDecode_eq_error_iff, Node.internals]
  | internal c0 c1 f d =>
    refine iff_of_false (fun h => nomatch walkDecode_error h) ?_
    simp [Node.internals]

/-- DECODE_FN fails where the first of its stages does (R220). -/
theorem decodeFn_error {x : List Byte} {e : ErrCode} (h : decodeFn x = .error e) :
    unpack x = .error e ∨ (∃ C, unpack x = .ok C ∧ deserializeTree C = .error e) ∨
    ∃ C p, unpack x = .ok C ∧ deserializeTree C = .ok p ∧ payloadDecode p.root (C.drop p.used) = .error e := by
  cases hC : unpack x with
  | error e' =>
    obtain rfl := Except.error.inj ((decodeFn_of_unpack_error hC).symm.trans h)
    exact .inl rfl
  | ok C =>
    cases hp : deserializeTree C with
    | error e' =>
      obtain rfl := Except.error.inj ((decodeFn_of_parse_error hC hp).symm.trans h)
      exact .inr (.inl ⟨C, rfl, hp⟩)
    | ok p => exact .inr (.inr ⟨C, p, rfl, hp, (decodeFn_of_parse hC hp).symm.trans h⟩)

/-- Settles O56: each stage has its own errors, and only PAYLOAD_DECODE has UNRESOLVED_PAYLOAD_BITS. -/
theorem decodeErrors : Obligations.DecodeErrors := by
  refine ⟨fun x e h => ?_, fun x => ⟨fun h => ?_, ?_⟩⟩
  · rcases decodeFn_error h with hunpack | ⟨C, -, hparse⟩ | ⟨C, p, -, -, hpayload⟩
    · exact .inl (unpack_error_eq hunpack)
    · exact (deserializeTree_error hparse).imp_right .inr
    · exact (payloadDecode_error hpayload).imp_right .inl
  · rcases decodeFn_error h with hunpack | ⟨C, -, hparse⟩ | ⟨C, p, hC, hp, hpayload⟩
    · exact nomatch unpack_error_eq hunpack
    · rcases deserializeTree_error hparse with herr | herr <;> cases herr
    · exact ⟨C, p, hC, hp, payloadDecode_eq_unresolved_iff.1 hpayload⟩
  · rintro ⟨C, p, hC, hp, hpayload⟩
    rw [decodeFn_of_parse hC hp]
    exact payloadDecode_eq_unresolved_iff.2 hpayload

/-! The errors of a command (spec/60_exceptions.md R242, R248, R249; spec/46_commands.md R221). -/

theorem encodeFn_error {x : List Byte} {e : ErrCode} (h : encodeFn x = .error e) : e = .emptyInput := by
  by_cases hx : x = []
  · subst hx
    exact (Except.error.inj h).symm
  · obtain ⟨t, ht⟩ := exists_buildTree hx
    exact nomatch (encodeFn_of_buildTree ht).symm.trans h

/-- The errors of RUN itself are none of the codec functions'. -/
theorem codecOf_error {i : Instr} {x : List Byte} {e : ErrCode} (h : codecOf i x = .error e) :
    e ≠ .badLength ∧ e ≠ .outputOverflow := by
  cases i with
  | encode =>
    obtain rfl := encodeFn_error h
    decide
  | decode =>
    obtain ⟨herrors, -⟩ := decodeErrors
    rcases herrors x e h with rfl | rfl | rfl <;> decide

theorem code_ne_zero (e : ErrCode) : e.code ≠ 0#4 := by cases e <;> decide

theorem code_injective : Function.Injective ErrCode.code := by
  intro e e' h
  revert h
  cases e <;> cases e' <;> decide

theorem exec_of_run_error {i : Instr} {s : State} {e : ErrCode} (hrun : runCodec (codecOf i) s = .error e) :
    exec i s = .next (completeError e s) := by
  rw [exec_eq]
  simp [runAndComplete, hrun]

theorem exec_of_long_input {s : State} (hlen : s.build.inCap < s.inLen.toNat) (i : Instr) :
    exec i s = .next (completeError .badLength s) :=
  exec_of_run_error (if_pos hlen)

theorem exec_of_long_result {i : Instr} {s : State} {x y : List Byte} (hlen : s.inLen.toNat ≤ s.build.inCap)
    (hx : s.inputBytes = some x) (hcodec : codecOf i x = .ok y) (hy : s.build.outCap < y.length) :
    exec i s = .next (completeError .outputOverflow s) := by
  refine exec_of_run_error ?_
  rw [runCodec_of_input hlen hx, hcodec]
  exact if_pos hy

/-- An error of a command on defined input has one of three causes: IN_LEN, its function, or the length of the function's
result. -/
theorem exec_error_cause {i : Instr} {s t : State} {x : List Byte} {e : ErrCode} (hx : s.inputBytes = some x)
    (h : exec i s = .next t) (herr : t.errcode = e.code) :
    (s.build.inCap < s.inLen.toNat ∧ e = .badLength) ∨ codecOf i x = .error e ∨
    (∃ y, codecOf i x = .ok y ∧ s.build.outCap < y.length ∧ e = .outputOverflow) := by
  have cause : ∀ {e'}, exec i s = .next (completeError e' s) → e = e' := fun h' =>
    code_injective (herr.symm.trans (congrArg State.errcode (Host.Outcome.next.inj (h.symm.trans h'))))
  rcases Nat.lt_or_ge s.build.inCap s.inLen.toNat with hlong | hlen
  · exact .inl ⟨hlong, cause (exec_of_long_input hlong i)⟩
  · cases hcodec : codecOf i x with
    | error e' => exact .inr (.inl (congrArg _ (cause (exec_of_error hlen hx hcodec)).symm))
    | ok y =>
      rcases Nat.lt_or_ge s.build.outCap y.length with hover | hfits
      · exact .inr (.inr ⟨y, rfl, hover, cause (exec_of_long_result hlen hx hcodec hover)⟩)
      · obtain rfl := Host.Outcome.next.inj ((exec_of_ok hlen hx hcodec hfits).symm.trans h)
        exact absurd herr.symm (code_ne_zero e)

/-- Settles O10: IN_LEN = 0 is within every IN_CAP and gives ENCODE_FN the empty input; DECODE_FN has no such error. -/
theorem emptyInputOnlyOnEncode : Obligations.EmptyInputOnlyOnEncode := by
  refine ⟨fun s hzero => ?_, fun s t x hx h herr => ?_⟩
  · have hlen : s.inLen.toNat ≤ s.build.inCap := by simp [hzero]
    have hx : s.inputBytes = some [] := by simp [State.inputBytes, hzero, Memory.readFrom]
    exact ⟨_, exec_of_error hlen hx (i := .encode) rfl, commandFailed_completeError .emptyInput s, rfl⟩
  · rcases exec_error_cause (e := .emptyInput) hx h herr with ⟨-, hcause⟩ | hcodec | ⟨y, -, -, hcause⟩
    · cases hcause
    · obtain ⟨herrors, -⟩ := decodeErrors
      rcases herrors x _ hcodec with hcause | hcause | hcause <;> cases hcause
    · cases hcause

/-- Settles O11: RUN tests IN_LEN first, and no other test gives BAD_LENGTH. -/
theorem badLengthExactlyOverCapacity : Obligations.BadLengthExactlyOverCapacity := by
  refine ⟨fun i s hlong => ?_, fun i s t x hx hlen h herr => ?_⟩
  · exact ⟨_, exec_of_long_input hlong i, commandFailed_completeError .badLength s, rfl⟩
  · rcases exec_error_cause (e := .badLength) hx h herr with ⟨hlong, -⟩ | hcodec | ⟨y, -, -, hcause⟩
    · exact absurd hlong (Nat.not_lt.2 hlen)
    · exact (codecOf_error hcodec).1 rfl
    · cases hcause

/-- A complete result longer than OUT_CAP is reported as OUTPUT_OVERFLOW, code 7. -/
theorem exec_overflows {i : Instr} {s : State} {x y : List Byte} (hlen : s.inLen.toNat ≤ s.build.inCap)
    (hx : s.inputBytes = some x) (hy : s.build.outCap < y.length) (hcodec : codecOf i x = .ok y) :
    ∃ t, exec i s = .next t ∧ CommandFailed .outputOverflow s t ∧ t.errcode = 7#4 :=
  ⟨_, exec_of_long_result hlen hx hcodec hy, commandFailed_completeError .outputOverflow s, rfl⟩

/-- On defined input OUTPUT_OVERFLOW means a complete result longer than OUT_CAP. -/
theorem exists_long_result {i : Instr} {s t : State} {x : List Byte} (hx : s.inputBytes = some x)
    (h : exec i s = .next t) (herr : t.errcode = 7#4) : ∃ y, codecOf i x = .ok y ∧ s.build.outCap < y.length := by
  rcases exec_error_cause (e := .outputOverflow) hx h herr with ⟨-, hcause⟩ | hcodec | ⟨y, hcodec, hover, -⟩
  · cases hcause
  · exact absurd rfl (codecOf_error hcodec).2
  · exact ⟨y, hcodec, hover⟩

/-- Settles O12: both commands, each way. -/
theorem overflowExactlyOnLongResult : Obligations.OverflowExactlyOnLongResult := by
  refine ⟨fun s x y hlen hx hy => ⟨?_, ?_⟩, fun s t x hx => ⟨?_, ?_⟩⟩
  · exact exec_overflows (i := .encode) hlen hx hy
  · exact exec_overflows (i := .decode) hlen hx hy
  · exact exists_long_result (i := .encode) hx
  · exact exists_long_result (i := .decode) hx

end Sys2Proof.Machine

namespace Sys2Proof.Machine

/-! RESET, and what cannot start it (spec/70_reset_and_hazards.md R270, R275). -/

theorem step_of_resetDue {s : State} (h : s.resetDue = true) : step s = .next (resetEvent s.tick) := if_pos h

theorem engineStep_platform {s t : State} (h : engineStep s = .next t) : t.platform = s.platform := by
  obtain ⟨u, hu, -, -, -, -, -, -, -, hplatform⟩ := engineStep_next s
  obtain rfl : u = t := Host.Outcome.next.inj (hu.symm.trans h)
  exact hplatform

/-- The RESETs to come are out of the host's reach. -/
theorem hostTurn_platform {s t : State} (h : hostTurn s = .next t) : t.platform = s.platform := by
  rcases hostTurn_effects h with ⟨_, _, rfl, -⟩ | ⟨-, v, -, rfl⟩ | ⟨-, _, rfl⟩ | ⟨-, _, _, -, -, rfl⟩
  · rfl
  · exact acceptCommand_platform (s.host.operand v) s
  · rfl
  · rfl

/-- Settles O26: a due RESET comes before a completion and the host's turn, and none of the three plans another. -/
theorem resetArrivesInAnyState : Obligations.ResetArrivesInAnyState := by
  refine ⟨fun s hdue => ?_, fun s t h => ?_⟩
  · exact ⟨_, step_of_resetDue hdue, rfl, rfl, rfl, rfl, rfl, rfl, read_nil, read_nil, rfl, rfl⟩
  · rcases step_cases h with ⟨-, rfl⟩ | ⟨-, -, hengine⟩ | ⟨-, -, hhost⟩
    · rfl
    · exact (engineStep_platform hengine).trans (tick_platform s)
    · exact (hostTurn_platform hhost).trans (tick_platform s)

/-- Settles O20: each write that HUFCORE takes needs BUSY = 0. -/
theorem writesWhileBusyAreLost : Obligations.WritesWhileBusyAreLost := by
  intro s sp off v hbusy
  rcases hostWrite_cases sp off v s with hlost | ⟨hidle, -⟩ | ⟨hidle, -⟩ | ⟨hidle, -⟩
  · exact hlost
  all_goals exact nomatch hbusy.symm.trans hidle

/-! How much a payload can decode to (spec/70_reset_and_hazards.md R282): every decoded byte takes at least one bit. -/

theorem leafDecode_ok_length {s : Byte} {out y : List Byte} {P : List Bit} (h : leafDecode s out P = .ok y) :
    y.length = out.length + P.length := by
  induction P generalizing out with
  | nil =>
    obtain rfl := Except.ok.inj h
    rfl
  | cons b P ih =>
    cases b with
    | false =>
      have hlength := ih h
      simp only [List.length_append, List.length_singleton] at hlength
      rw [hlength, List.length_cons]
      omega
    | true => cases h

theorem walkDecode_ok_length_le {root n : Node} {pending : Bool} {out y : List Byte} {P : List Bit}
    (h : walkDecode root n pending out P = .ok y) : y.length ≤ out.length + P.length := by
  induction P generalizing n pending out with
  | nil =>
    rw [walkDecode] at h
    split at h
    · cases h
    · obtain rfl := Except.ok.inj h
      exact le_rfl
  | cons b P ih =>
    rw [walkDecode] at h
    rw [List.length_cons]
    split at h
    · have hlength := ih h
      rw [List.length_append, List.length_singleton] at hlength
      omega
    · have hlength := ih h
      omega

theorem payloadDecode_ok_length_le {root : Node} {P : List Bit} {y : List Byte} (h : payloadDecode root P = .ok y) :
    y.length ≤ P.length := by
  cases root with
  | leaf s f d => simpa using (leafDecode_ok_length h).le
  | internal c0 c1 f d => simpa using walkDecode_ok_length_le h

/-- A unit has room for its header and its content. -/
theorem unpack_ok_length {x : List Byte} {C : List Bit} (h : unpack x = .ok C) : 3 + C.length ≤ 8 * x.length := by
  obtain ⟨pad, hx, -⟩ := unpack_eq_ok_iff.1 h
  rw [← bytesToBits_length, hx, List.length_append, List.length_append, bits3_length]
  omega

/-- The tree field of a content takes at least the nine bits of one Leaf. -/
theorem deserializeTree_used_bounds {C : List Bit} {p : ParsedTree} (h : deserializeTree C = .ok p) :
    9 ≤ p.used ∧ p.used ≤ C.length := by
  obtain ⟨hused, htake, -⟩ := deserializeTree_reads h
  have hleaves := internals_add_one p.root
  have hfield := serializeTree_length_add_one p.root
  have hprefix := congrArg List.length htake
  rw [List.length_take] at hprefix
  omega

/-- Settles O59: of 8k bits, three are the header, at least nine the tree field, and each byte takes one of the rest. -/
theorem decodeExpansionBound : Obligations.DecodeExpansionBound := by
  intro x y h
  obtain ⟨C, p, hC, hp, hy⟩ := decodeFn_ok h
  have hunit := unpack_ok_length hC
  obtain ⟨hleaf, hcontent⟩ := deserializeTree_used_bounds hp
  have hpayload := payloadDecode_ok_length_le hy
  rw [List.length_drop] at hpayload
  omega

end Sys2Proof.Machine
